-- ==== Sys2Proof/Word.lean ====
section
/-! DEFINITION. The word types of the frame reassembler (spec 00_scope.md R5, R9; 30_encoding.md R47). -/

namespace Sys2Proof

/-- One stream byte, an unsigned number 0 to 255, bit 7 most significant (R5, R9, R33). -/
abbrev Byte := BitVec 8

/-- One event word `W[9:0]`, the three input port signals of a step (R47). -/
abbrev EventWord := BitVec 10

/-- The 9-bit number of the `exp` register and of `out_len` (R6, R14, R53). -/
abbrev Len9 := BitVec 9

/-- A frame is a byte sequence, its first byte at offset 0 (R32, R57). -/
abbrev Frame := List Byte

end Sys2Proof
end

