-- ==== Sys2Proof/Config.lean ====
section
/-! DEFINITION. The implementation parameters of the block, fixed at the document's values (spec 00_scope.md R5 to R8;
log 10). The spec leaves no parameter open (92_eei_decisions.md, last paragraph), so there is no free value here. -/

namespace Sys2Proof

/-- `BYTE_BITS`: the width of one stream byte (R5). -/
abbrev Config.byteBits : Nat := 8

/-- `LEN_OFFSET`: the offset in a response frame of the length byte (R5). -/
abbrev Config.lenOffset : Nat := 1

/-- `HDR_THRESHOLD`: the number of accumulated bytes at which the expected length becomes known (R5). -/
abbrev Config.hdrThreshold : Nat := 2

/-- `HDR_BYTES`: the bytes of a response frame that the length byte does not count (R5). -/
abbrev Config.hdrBytes : Nat := 3

/-- `MAX_PAYLOAD`: the largest value of the length byte (R5). -/
abbrev Config.maxPayload : Nat := 255

/-- `MIN_FRAME`: the smallest frame the block can emit (R6). -/
abbrev Config.minFrame : Nat := Config.hdrBytes + 0

/-- `MAX_FRAME`: the largest frame the block can emit (R6). -/
abbrev Config.maxFrame : Nat := Config.hdrBytes + Config.maxPayload

/-- The largest number of bytes that rest in the buffer between two steps (R6). -/
abbrev Config.maxResting : Nat := Config.maxFrame - 1

/-- The bytes of a request frame's header (R7). -/
abbrev Config.requestHdrBytes : Nat := 4

/-- The offset in a request frame of its length byte (R7). -/
abbrev Config.requestLenOffset : Nat := 2

end Sys2Proof
end

