-- ==== Sys2Proof/Syntax.lean ====
section
/-! DEFINITION. The abstract input events, one constructor for each row of the opcode table (spec 30_encoding.md R57,
R56). The pseudo-event FEEDN has no row (R55) and stands in Machine/Run.lean. -/

namespace Sys2Proof

/-- `Event ::= Feed(b : Byte) | Idle | Reset` (R57). -/
inductive Instr where
  /-- FEED: the byte `b` of the stream is presented (R48, R60, R61). -/
  | feed (b : Byte)
  /-- IDLE: no byte is pending in this step (R49, R59). -/
  | idle
  /-- RESET: the block is reset (R50, R62). -/
  | reset
deriving DecidableEq, Repr

end Sys2Proof
end

