-- ==== Sys2Proof/Machine/State.lean ====
section
/-! DEFINITION. The state of the reassembler as plain data, the reasons a step can stop, and the state after reset
(spec 10_state.md R13 to R25). -/

namespace Sys2Proof.Machine

/-- The accumulation buffer as a memory: pairs of an offset and its byte (R27). In the canonical form the offsets
are 0, 1, ..., in order (`Memory.wf` of Machine/Ops.lean); an offset that is not listed holds no value (R24; log 6). -/
abbrev Memory := List Host.Cell

/-- The two phases of the block (R16); derived from `len`, not stored. -/
inductive Phase where
  /-- Fewer than 2 bytes accumulated: the length byte has not arrived. -/
  | awaitingHeader
  /-- 2 or more bytes accumulated, the expected total length known. -/
  | awaitingBody
deriving DecidableEq, Repr

/-- The reasons the machine stops with a fault: none. The block raises no exception and no step faults
(60_exceptions.md R89, R103; log 14). -/
inductive Fault where
deriving DecidableEq, Repr

/-- The reasons the machine gives an event no meaning. -/
inductive Refusal where
  /-- The event has no meaning yet. Raised by no arm of `exec`; safe. -/
  | notModelled (mnemonic : String)
  /-- FEED in a state that violates an invariant of R21, for which the spec defines no behaviour (R26, U1, D19).
  Raised by `execFeed`; safe (log 4). No run from reset meets it. -/
  | outsideInvariants
deriving DecidableEq, Repr

/-- `buf` and `exp` are the whole architectural state of the block (R17). `out` and `input` are the model's own: the
output of the step that led here (R23; log 3) and the event words the environment presents next (R47, R100; log 1). -/
structure State where
  /-- The accumulation buffer (R13). -/
  buf : Memory
  /-- The optional expected total length, 9 bits (R14, R18). -/
  exp : Option Len9
  /-- The output of the last step (R23); no rule reads it. -/
  out : Option Frame
  /-- The event words still to be presented, the next one first (R47). -/
  input : List EventWord
deriving DecidableEq, Repr

/-- The state after reset and at the creation of an instance (R25, R105): `buf == []`, `exp == none`, no output.
Nothing is presented yet (DESIGN CHOICE, log 1). -/
def State.reset : State := { buf := [], exp := none, out := none, input := [] }

end Sys2Proof.Machine
end

