-- ==== Sys2Proof/Machine/Operands.lean ====
section
/-! DEFINITION. The one operand the block assembles: the expected total length (spec 30_encoding.md R45;
40_stream_events.md R65). FEED's own operand is `in_data`, taken from the word by the decoder (R48). -/

namespace Sys2Proof.Machine

/-- `zext_9(n) + 3` of the length byte `n`, in 9 bits, which hold every sum 3 to 258 (R45, R65). -/
def expectedLen (n : Byte) : Len9 := n.zeroExtend 9 + BitVec.ofNat 9 Config.hdrBytes

end Sys2Proof.Machine
end

