-- ==== Sys2Proof/Machine/Ops.lean ====
section
/-! DEFINITION. The named operations over the buffer and the state: MemRead, MemWrite, Clear (spec 20_memory.md R29 to
R31), the writing of `exp` (40_stream_events.md R60), and the emission, which is the block's only event and its answer
to exception entry (60_exceptions.md R94). Nothing has to be done to return from an emission (R95). -/

namespace Sys2Proof.Machine

/-! ### The buffer -/

/-- `len(buf)` (R15). -/
def Memory.len (m : Memory) : Nat := m.length

/-- The bytes of the buffer in offset order, the document's "ordered sequence of bytes" (R13). -/
def Memory.bytes (m : Memory) : List Byte := m.map Prod.snd

/-- The canonical form: the listed offsets are 0, 1, ..., `len - 1` in this order (R27, R32). -/
abbrev Memory.wf (m : Memory) : Prop := m.map Prod.fst = List.range m.length

/-- The byte at one offset; an offset that is not listed holds no value (R24). -/
def Memory.byteAt (m : Memory) (a : Nat) : Option Byte := m.lookup a

/-- `MemRead(addr, n)`: the `n` bytes `buf[addr..addr+n]` in offset order, defined only when `addr + n <= len` (R29). -/
def Memory.memRead (m : Memory) (addr n : Nat) : Option (List Byte) :=
  if addr + n ≤ m.len then some ((m.bytes.drop addr).take n) else none

/-- `buf <- buf ++ [v]`: the byte lands at offset `len` (R30). -/
def Memory.append (m : Memory) (v : Byte) : Memory := m ++ [(m.len, v)]

/-- `MemWrite(addr, 1, v)`: defined only for `addr == len`, where it appends (R30). -/
def Memory.memWrite (m : Memory) (addr : Nat) (v : Byte) : Option Memory :=
  if addr = m.len then some (m.append v) else none

/-! ### The state -/

/-- `len`, the position of the next byte in the current frame (R15, R19). -/
def State.len (s : State) : Nat := s.buf.len

/-- `out <- none`, with which every step begins (R58). -/
def State.quiet (s : State) : State := { s with out := none }

/-- `MemWrite(len, 1, b)` (R60, R61): at offset `len` it is defined and is the append (`Memory.memWrite`). -/
def State.append (s : State) (b : Byte) : State := { s with buf := s.buf.append b }

/-- `exp <- some (zext_9(MemRead(1, 1)) + 3)` (R60): the length byte is read back from the buffer (R40). -/
def State.learnLength (s : State) : State :=
  { s with exp := (s.buf.byteAt Config.lenOffset).map expectedLen }

/-- `Clear()`: `buf <- []` and `exp <- none` together (R31). -/
def State.clear (s : State) : State := { s with buf := [], exp := none }

/-- The emission: `out <- some MemRead(0, len)`, then `Clear()` (R61, R94). -/
def State.emit (s : State) : State := State.clear { s with out := s.buf.memRead 0 s.len }

/-- The state with the words `ws` as the events still to be presented. -/
def State.withInput (s : State) (ws : List EventWord) : State := { s with input := ws }

end Sys2Proof.Machine
end

