-- ==== Sys2Proof/Machine/Flags.lean ====
section
/-! DEFINITION. The derived phase, the one predicate, and the invariants of a run (spec 10_state.md R16, R20, R21). The
block has no condition codes (R20). -/

namespace Sys2Proof.Machine

/-- `phase` (R16): AwaitingHeader exactly when `len < 2`. -/
def State.phase (s : State) : Phase :=
  if s.len < Config.hdrThreshold then .awaitingHeader else .awaitingBody

/-- The one predicate, "the expected length is known": `exp != none` (R20). -/
def State.expKnown (s : State) : Bool := s.exp.isSome

/-- I1 of R21: `0 <= len <= 257`. -/
abbrev State.restsInBuffer (s : State) : Prop := s.len ≤ Config.maxResting

/-- I2 of R21: `exp == none` exactly when `len < 2`. -/
abbrev State.expKnownInBody (s : State) : Prop := s.exp = none ↔ s.len < Config.hdrThreshold

/-- I3 of R21: if `len >= 2` then `exp == some (buf[1] + 3)`. -/
abbrev State.expFromLengthByte (s : State) : Prop :=
  Config.hdrThreshold ≤ s.len → s.exp = (s.buf.byteAt Config.lenOffset).map expectedLen

/-- I4 of R21: if `len >= 2` then `len < buf[1] + 3`. -/
abbrev State.shorterThanFrame (s : State) : Prop :=
  Config.hdrThreshold ≤ s.len → ∀ n ∈ s.buf.byteAt Config.lenOffset, s.len < n.toNat + Config.hdrBytes

/-- The test of the invariants I1 to I4 of R21, over a buffer in canonical form. They constrain `buf` and `exp`
only. -/
def State.inv (s : State) : Bool :=
  decide (s.buf.wf ∧ s.restsInBuffer ∧ s.expKnownInBody ∧ s.expFromLengthByte ∧ s.shorterThanFrame)

/-- The state satisfies R21. -/
abbrev State.Inv (s : State) : Prop := s.inv = true

end Sys2Proof.Machine
end

