-- ==== Sys2Proof/Machine/Stream.lean ====
section
/-! DEFINITION. The meanings of the stream events FEED, IDLE and RESET (spec 40_stream_events.md R58 to R62). -/

namespace Sys2Proof.Machine

/-- FEED in phase AwaitingHeader (R60): append; at 2 bytes compute `exp`; no comparison and no emission. -/
def feedHeader (b : Byte) (s : State) : State :=
  let t := s.quiet.append b
  if t.len = Config.hdrThreshold then t.learnLength else t

/-- FEED in phase AwaitingBody with `exp == some n` (R61): append; compare the new length with `n` by equality
(R66); on equality emit the whole buffer and clear. -/
def feedBody (n : Len9) (b : Byte) (s : State) : State :=
  let t := s.quiet.append b
  if t.len = n.toNat then t.emit else t

/-- FEED (R60, R61). In a state outside R21 the spec gives it no behaviour and it is refused by name (R26, U1, D19;
log 4). -/
def execFeed (b : Byte) (s : State) : Host.Outcome State Fault Refusal :=
  if s.inv then
    match s.phase, s.exp with
    | .awaitingHeader, _ => .next (feedHeader b s)
    | .awaitingBody, some n => .next (feedBody n b s)
    | .awaitingBody, none => .refused .outsideInvariants
  else .refused .outsideInvariants

/-- IDLE (R59): `out <- none`; `buf` and `exp` are unchanged. -/
def execIdle (s : State) : Host.Outcome State Fault Refusal := .next s.quiet

/-- RESET (R62): `out <- none`, `Clear()`. A partial frame is discarded without being emitted. -/
def execReset (s : State) : Host.Outcome State Fault Refusal := .next s.quiet.clear

end Sys2Proof.Machine
end

