-- ==== Sys2Proof/Machine/Dispatch.lean ====
section
/-! DEFINITION. One arm for each event (spec 30_encoding.md R56, R57). -/

namespace Sys2Proof.Machine

def exec (i : Instr) (s : State) : Host.Outcome State Fault Refusal :=
  match i with
  | .feed b => Sys2Proof.Machine.execFeed b s
  | .idle => Sys2Proof.Machine.execIdle s
  | .reset => Sys2Proof.Machine.execReset s

end Sys2Proof.Machine
end

