-- ==== Sys2Proof/WellFormed.lean ====
section
/-! DEFINITION. Well-formedness of events and of byte sequences (spec 30_encoding.md R44, R52; 40_stream_events.md R71;
41_codec.md R76). -/

namespace Sys2Proof

/-- Every event is well formed: FEED's operand is any byte (R44, R54), and its type admits nothing else.
So there is no ill-formed event to refuse (R51, R52). -/
def Instr.wf : Instr → Bool
  | .feed _ => true
  | .idle => true
  | .reset => true

/-- A response frame is well formed when `len(w) == w[1] + 3` (R42, R71). -/
abbrev Frame.wf (w : Frame) : Prop :=
  w[Config.lenOffset]?.map (fun n => n.toNat + Config.hdrBytes) = some w.length

/-- A payload is 0 to 255 bytes long (R76, R77). -/
abbrev payloadWf (p : List Byte) : Prop := p.length ≤ Config.maxPayload

end Sys2Proof
end

