-- ==== Sys2Proof/Decode.lean ====
section
/-! DEFINITION. The event decoder, total on all 1024 event words (spec 30_encoding.md R47 to R51), and after it the
encoder and the rows of the opcode table. -/

namespace Sys2Proof

/-- Port signal `rst`, bit 9 of the event word (R47). -/
def EventWord.rst (w : EventWord) : Bool := w.getLsbD 9

/-- Port signal `in_valid`, bit 8 of the event word (R47). -/
def EventWord.inValid (w : EventWord) : Bool := w.getLsbD 8

/-- Port signal `in_data`, bits 7 to 0 of the event word (R47). -/
def EventWord.inData (w : EventWord) : Byte := w.extractLsb' 0 8

/-- The event word made of the three port signals (R47). -/
def EventWord.ofPorts (rst inValid : Bool) (inData : Byte) : EventWord :=
  BitVec.ofBool rst ++ (BitVec.ofBool inValid ++ inData)

/-- The event decoder (R48 to R50). `rst` has priority over `in_valid` (R50); ignored bits are dropped (R51). -/
def decodeEvent (w : EventWord) : Instr :=
  if EventWord.rst w then .reset
  else if EventWord.inValid w then .feed (EventWord.inData w)
  else .idle

/-- Why bits handed to the decoder are no event word. -/
inductive DecodeError where
  /-- A bit above bit 9 is set: an event word has ten bits (R47). Raised by `decodeBits`; safe. -/
  | widerThanEventWord
deriving DecidableEq, Repr

/-- The decoder on a number of any size: what does not fit the ten port signals is rejected by name (log 7). -/
def decodeBits (w : Nat) : Except DecodeError Instr :=
  if w < 2 ^ 10 then .ok (decodeEvent (BitVec.ofNat 10 w)) else .error .widerThanEventWord

/-- The decoder in the numbering of the opcode table: bit 0 is bit 0 of the event word. Bits at `nbits` and above
are no bits of the instruction and count as 0. -/
def decodeTableWord (nbits w : Nat) : Option Instr :=
  match decodeBits (w % 2 ^ nbits) with
  | .ok i => some i
  | .error _ => none

/-- The canonical word of an event (R48 to R50): ignored bits are 0. -/
def encode : Instr → EventWord
  | .feed b => 0b01#2 ++ b
  | .idle => 0x000#10
  | .reset => 0x200#10

/-- The canonical word of a word's event: a FEED word itself, `0x000` for any IDLE word, `0x200` for any RESET word
(R49, R50). -/
def canonicalWord (w : EventWord) : EventWord :=
  if EventWord.rst w then 0x200#10
  else if EventWord.inValid w then w
  else 0x000#10

/-- A row of the opcode table: a word is of the row when its masked bits equal `pattern`. -/
structure OpcodeRow where
  mnemonic : String
  pattern : EventWord
  mask : EventWord
deriving DecidableEq, Repr

/-- The table's row of an event (opcode_table.json; R48, R49, R50). -/
def Instr.row : Instr → OpcodeRow
  | .feed _ => { mnemonic := "FEED", pattern := 0x100#10, mask := 0x300#10 }
  | .idle => { mnemonic := "IDLE", pattern := 0x000#10, mask := 0x300#10 }
  | .reset => { mnemonic := "RESET", pattern := 0x200#10, mask := 0x200#10 }

/-- Whether a word is of a row (R51: every word is of exactly one). -/
def OpcodeRow.admits (r : OpcodeRow) (w : EventWord) : Bool := w &&& r.mask == r.pattern

end Sys2Proof
end

