-- ==== Sys2Proof/Machine/Fetch.lean ====
section
/-! DEFINITION. Where a step takes its event from, and how a word is presented to it (spec 30_encoding.md R47;
60_exceptions.md R91, R100; log 1, log 2, log 7). -/

namespace Sys2Proof.Machine

/-- The event word of the step and the state it is taken from. When no word is left, no byte is pending: the ports then
show `in_valid == 0`, the canonical IDLE word (R49, R59, R91; log 2). -/
def State.fetch (s : State) : EventWord × State :=
  match s.input with
  | [] => (0x000#10, s)
  | w :: rest => (w, s.withInput rest)

/-- `s` with the word `w` presented next, before the words already lined up. -/
def State.present (s : State) (w : EventWord) : State := s.withInput (w :: s.input)

end Sys2Proof.Machine
end

