-- ==== Sys2Proof/Machine/Step.lean ====
section
/-! DEFINITION. One step processes one event (spec 00_scope.md R11; 40_stream_events.md R58): the next event word is
fetched, decoded and executed. -/

namespace Sys2Proof.Machine

/-- One step (R58). -/
def step (s : State) : Host.Outcome State Fault Refusal := exec (decodeEvent s.fetch.1) s.fetch.2

/-- `s` with the event word of the bits `w` presented next (log 7). Bits at `nbits` and above, and bits above the ten of
an event word, are no part of it. -/
def State.withFetchWord (s : State) (nbits w : Nat) : State := s.present (BitVec.ofNat 10 (w % 2 ^ nbits))

end Sys2Proof.Machine
end

