-- ==== Sys2Proof/Machine/Codec.lean ====
section
/-! DEFINITION. The companion functions of the Frame Codec, `encode` and `decode` (spec 41_codec.md R76 to R88). They are
pure: they take no state and change none (R83). -/

namespace Sys2Proof.Codec

/-- A request frame (R76). `payload_length` is not stored: it is always the length of `payload`. A payload of more
than 255 bytes cannot be built (U5, D18). -/
structure RequestFrame where
  targetId : Byte
  opCode : Byte
  payload : List Byte
  crc : Byte
  payload_wf : payloadWf payload
deriving DecidableEq, Repr

/-- A response frame (R77): `payload_length` as received, and a payload of exactly that many bytes. -/
structure ResponseFrame where
  responseCode : Byte
  payloadLength : Byte
  crc : Byte
  payload : List Byte
  length_eq : payload.length = payloadLength.toNat
deriving DecidableEq, Repr

/-- The one failure of the Codec, with no field (R90; log 11). -/
inductive Failure where
  /-- `MalformedFrame`: raised by `decode` on its two causes (R81); it stops nothing and is no outcome of a step. -/
  | malformedFrame
deriving DecidableEq, Repr

/-- The builder of a request; one with no `crc` to supply uses `0x00` (R76, D16). -/
def RequestFrame.build (targetId opCode : Byte) (payload : List Byte) (h : payloadWf payload) (crc : Byte := 0x00) :
    RequestFrame :=
  { targetId, opCode, payload, crc, payload_wf := h }

/-- `payload_length` of a request, derived from the payload (R76, R79). -/
def RequestFrame.payloadLength (r : RequestFrame) : Byte := BitVec.ofNat 8 r.payload.length

/-- The field constructor of a response: it derives `payload_length` (R77, D14). -/
def ResponseFrame.build (responseCode crc : Byte) (payload : List Byte) (h : payloadWf payload) : ResponseFrame :=
  { responseCode
    payloadLength := BitVec.ofNat 8 payload.length
    crc
    payload
    length_eq := by
      have : payload.length ≤ 255 := h
      rw [BitVec.toNat_ofNat, Nat.mod_eq_of_lt (by omega)] }

/-- The wire form of a response (R42, R84). -/
def ResponseFrame.wire (q : ResponseFrame) : Frame := [q.responseCode, q.payloadLength, q.crc] ++ q.payload

/-- `encode(r)` (R78): `target_id | op_code | payload_length | crc | payload`. -/
def encode (r : RequestFrame) : List Byte :=
  [r.targetId, r.opCode, r.payloadLength, r.crc] ++ r.payload

/-- `decode(s)` (R80, R81): the two causes of failure are tested in this order (90_conflicts.md C6). -/
def decode (s : List Byte) : Except Failure ResponseFrame :=
  if short : s.length < Config.hdrBytes then .error .malformedFrame
  else
    have long : 3 ≤ s.length := Nat.le_of_not_lt short
    if mismatch : s.length ≠ Config.hdrBytes + s[1].toNat then .error .malformedFrame
    else .ok
      { responseCode := s[0]
        payloadLength := s[1]
        crc := s[2]
        payload := s.drop Config.hdrBytes
        length_eq := by
          rw [List.length_drop]
          exact Nat.sub_eq_of_eq_add' (Decidable.not_not.mp mismatch) }

end Sys2Proof.Codec
end

