-- ==== Sys2Proof/Machine/Run.lean ====
section
/-! DEFINITION. Runs and their output traces (spec 00_scope.md R11), and the pseudo-event FEEDN (30_encoding.md R55;
40_stream_events.md R64). -/

namespace Sys2Proof.Machine

/-- Goes on with `f` from a next result; a fault or a refusal ends it. -/
def andThen {α β : Type} (x : Host.Outcome α Fault Refusal) (f : α → Host.Outcome β Fault Refusal) :
    Host.Outcome β Fault Refusal :=
  match x with
  | .next a => f a
  | .fault r => .fault r
  | .refused r => .refused r

/-- The run over a sequence of events: the last state and the output trace, the outputs of the steps in order (R11). -/
def run : List Instr → State → Host.Outcome (State × List (Option Frame)) Fault Refusal
  | [], s => .next (s, [])
  | i :: is, s =>
    andThen (exec i s) fun t =>
      andThen (run is t) fun r => .next (r.1, t.out :: r.2)

/-- The run of `k` machine steps, which take their events from the input: the last state and the output trace. -/
def stepRun : Nat → State → Host.Outcome (State × List (Option Frame)) Fault Refusal
  | 0, s => .next (s, [])
  | k + 1, s =>
    andThen (step s) fun t =>
      andThen (stepRun k t) fun r => .next (r.1, t.out :: r.2)

/-- The emission sequence of an output trace: its frames in order (R11). -/
def emissions (outs : List (Option Frame)) : List Frame := outs.filterMap id

/-- FEEDN (R64): one FEED for each byte of the chunk, in order; it returns the frames completed in the chunk. -/
def feedN : List Byte → State → Host.Outcome (State × List Frame) Fault Refusal
  | [], s => .next (s, [])
  | b :: bs, s =>
    andThen (exec (.feed b) s) fun t =>
      andThen (feedN bs t) fun r => .next (r.1, t.out.toList ++ r.2)

/-- A sequence of chunks, one FEEDN after the other; the frames of all of them, in order (R70). -/
def feedChunks : List (List Byte) → State → Host.Outcome (State × List Frame) Fault Refusal
  | [], s => .next (s, [])
  | c :: cs, s =>
    andThen (feedN c s) fun r =>
      andThen (feedChunks cs r.1) fun q => .next (q.1, r.2 ++ q.2)

/-- The bytes of the FEED events of a sequence of events, in order. -/
def fedBytes : List Instr → List Byte
  | [] => []
  | .feed b :: is => b :: fedBytes is
  | .idle :: is => fedBytes is
  | .reset :: is => fedBytes is

/-- The events after the last RESET of a sequence of events; all of them if it has none (R69). -/
def sinceReset (is : List Instr) : List Instr :=
  (is.reverse.takeWhile (fun i => i != .reset)).reverse

end Sys2Proof.Machine
end

