-- ==== Sys2Proof/Machine/InfiniteRun.lean ====
section
/-! DEFINITION. Infinite runs, their output traces and their emission sequences (spec 00_scope.md R11;
60_exceptions.md R100, R103). The environment presents one event word in every step without end: an infinite sequence of
words, which stands beside State and not in it (log 1). -/

namespace Sys2Proof.Machine

/-- The first `k` steps of the infinite run in which step `j` is presented the word `ws j`: the state they lead to and
their outputs in order (R11). -/
def prefixRun (ws : Nat → EventWord) (s : State) : Nat → Host.Outcome (State × List (Option Frame)) Fault Refusal
  | 0 => .next (s, [])
  | k + 1 =>
    andThen (prefixRun ws s k) fun r =>
      andThen (step (r.1.present (ws k))) fun t => .next (t, r.2 ++ [t.out])

/-- The output trace of the infinite run: `outputAt ws s k` is `out` of step `k`, steps counted from 0 (R11). -/
def outputAt (ws : Nat → EventWord) (s : State) (k : Nat) : Host.Outcome (Option Frame) Fault Refusal :=
  andThen (prefixRun ws s (k + 1)) fun r => .next r.1.out

/-- The emission sequence of the infinite run, as the graph of a partial sequence: its frame number `m`, counted from 0,
is `f` when some step has the output `some f` and exactly `m` steps before it have an output (R11). It may end or go on
without end. -/
def IsEmission (ws : Nat → EventWord) (s : State) (m : Nat) (f : Frame) : Prop :=
  ∃ (k : Nat) (r : State × List (Option Frame)),
    prefixRun ws s k = .next r ∧ outputAt ws s k = .next (some f) ∧ (emissions r.2).length = m

/-- The events that the first `k` words of an infinite sequence decode to. -/
def eventsBefore (ws : Nat → EventWord) (k : Nat) : List Instr := (List.range k).map fun j => decodeEvent (ws j)

end Sys2Proof.Machine
end

