-- ==== Sys2Proof/Machine/Instances.lean ====
section
/-! DEFINITION. Several instances side by side (spec 20_memory.md R41; 60_exceptions.md R100; log 15): a list of states,
one for each instance, and events that each name the instance they are presented to. -/

namespace Sys2Proof.Machine

/-- Presents event `i` to instance `k`; the other instances do not take part. An event to an instance that does not
exist changes nothing. -/
def execAt (k : Nat) (i : Instr) (ss : List State) : Host.Outcome (List State) Fault Refusal :=
  match ss[k]? with
  | none => .next ss
  | some s => andThen (exec i s) fun t => .next (ss.set k t)

/-- Presents a sequence of events, each with the instance it is meant for. -/
def runAt : List (Nat × Instr) → List State → Host.Outcome (List State) Fault Refusal
  | [], ss => .next ss
  | e :: es, ss => andThen (execAt e.1 e.2 ss) (runAt es)

/-- The events of a sequence that are meant for instance `k`. -/
def eventsOf (k : Nat) (es : List (Nat × Instr)) : List Instr :=
  (es.filter (fun e => e.1 == k)).map Prod.snd

end Sys2Proof.Machine
end

