-- ==== Sys2Proof/Machine/Ports.lean ====
section
/-! DEFINITION. The output of a step as port signals (spec 30_encoding.md R53). -/

namespace Sys2Proof.Machine

/-- The three output signals (R53): `out_valid`, `out_len` (9 bits) and the 258 byte lanes of `out_data`. -/
structure OutPorts where
  outValid : Bool
  outLen : Len9
  outData : Vector Byte Config.maxFrame
deriving DecidableEq, Repr

/-- The signals that carry the output `out` of a step (R53). Every signal the spec leaves unspecified takes its value
from `unspecified`, which is arbitrary (U3; log 9): with no frame, `out_len` and all lanes; with a frame, the lanes at
its length and above. -/
def drivePorts (unspecified : OutPorts) (out : Option Frame) : OutPorts :=
  match out with
  | none => { unspecified with outValid := false }
  | some f =>
    { outValid := true
      outLen := BitVec.ofNat 9 f.length
      outData := Vector.ofFn fun i => f[i.val]?.getD unspecified.outData[i] }

/-- What a consumer that reads no unspecified signal takes from the ports (R53). -/
def OutPorts.read (p : OutPorts) : Option Frame :=
  if p.outValid then some (p.outData.toList.take p.outLen.toNat) else none

end Sys2Proof.Machine
end

