-- ==== Sys2Proof/Machine/Trace.lean ====
section
/-! DEFINITION. The textual notation for event traces (spec 30_encoding.md R54, R55; log 12): one event a line, `;`
starts a comment, the output of a step that has one after `=>`. Text is a list of characters. -/

namespace Sys2Proof.Machine

/-- One line of a trace: an event with the output of its step, or the pseudo-event FEEDN with its operands. -/
inductive TraceLine where
  | event (i : Instr) (out : Option Frame)
  | feedN (bs : List Byte)
deriving DecidableEq, Repr

/-- The mnemonic FEED (R54). -/
def feedWord : List Char := ['F', 'E', 'E', 'D']
/-- The mnemonic IDLE (R54). -/
def idleWord : List Char := ['I', 'D', 'L', 'E']
/-- The mnemonic RESET (R54). -/
def resetWord : List Char := ['R', 'E', 'S', 'E', 'T']
/-- The mnemonic FEEDN (R55). -/
def feedNWord : List Char := ['F', 'E', 'E', 'D', 'N']
/-- The mark before an output (R54). -/
def outputMark : List Char := ['=', '>']

/-- The sixteen digits of R54's hex notation. -/
def hexDigits : List Char :=
  ['0', '1', '2', '3', '4', '5', '6', '7', '8', '9', 'A', 'B', 'C', 'D', 'E', 'F']

/-- A byte as two hex digits (R54). -/
def printByte (b : Byte) : List Char := [hexDigits.getD (b.toNat / 16) '0', hexDigits.getD (b.toNat % 16) '0']

/-- The byte of two hex digits. -/
def parseByte : List Char → Option Byte
  | [h, l] =>
    match hexDigits.idxOf? h, hexDigits.idxOf? l with
    | some x, some y => some (BitVec.ofNat 8 (16 * x + y))
    | _, _ => none
  | _ => none

/-- The bytes of a list of tokens, or none if a token is no byte. -/
def parseBytes : List (List Char) → Option (List Byte)
  | [] => some []
  | t :: ts =>
    match parseByte t, parseBytes ts with
    | some b, some bs => some (b :: bs)
    | _, _ => none

/-- The tokens of an output: none, or the mark and the bytes, set off by an empty token. -/
def outputTokens : Option Frame → List (List Char)
  | none => []
  | some f => [] :: outputMark :: f.map printByte

/-- The output of the tokens after an event. -/
def parseOutput : List (List Char) → Option (Option Frame)
  | [] => some none
  | m :: ts => if m = outputMark then (parseBytes ts).map some else none

/-- The tokens of a line. -/
def TraceLine.tokens : TraceLine → List (List Char)
  | .event (.feed b) out => feedWord :: (['0', 'x'] ++ printByte b) :: outputTokens out
  | .event .idle out => idleWord :: outputTokens out
  | .event .reset out => resetWord :: outputTokens out
  | .feedN bs => feedNWord :: bs.map printByte

/-- A line as text: its tokens with a space between them. -/
def TraceLine.print (l : TraceLine) : List Char := [' '].intercalate l.tokens

/-- The operand of FEED: `0x` and two hex digits. -/
def parseOperand : List Char → Option Byte
  | '0' :: 'x' :: ds => parseByte ds
  | _ => none

/-- The line of a list of tokens. -/
def parseTokens : List (List Char) → Option TraceLine
  | [] => none
  | m :: ts =>
    if m = feedWord then
      match ts with
      | [] => none
      | op :: rest =>
        match parseOperand op, parseOutput rest with
        | some b, some out => some (.event (.feed b) out)
        | _, _ => none
    else if m = idleWord then (parseOutput ts).map (.event .idle)
    else if m = resetWord then (parseOutput ts).map (.event .reset)
    else if m = feedNWord then (parseBytes ts).map .feedN
    else none

/-- The pieces of a text between spaces. -/
def splitSpaces : List Char → List (List Char)
  | [] => [[]]
  | c :: cs =>
    match splitSpaces cs with
    | [] => [[c]]
    | t :: ts => if c = ' ' then [] :: t :: ts else (c :: t) :: ts

/-- The line a text stands for: any number of spaces separates tokens. R54 does not say where a comment ends. DESIGN
CHOICE (log 12): it goes to the end of the line, so that an output written after `;`, as 95_test_vectors.md P1, P2, P3 and
P5 write it, is comment, and the line is read as an event with no output written. -/
def parseLine (text : List Char) : Option TraceLine :=
  parseTokens ((splitSpaces (text.takeWhile (fun c => c != ';'))).filter (fun t => !t.isEmpty))

/-- The trace of a run: each event with the output of its step. -/
def traceOf (is : List Instr) (outs : List (Option Frame)) : List TraceLine := List.zipWith .event is outs

end Sys2Proof.Machine
end

