-- ==== Sys2Proof/Safety.lean ====
section
/-! DEFINITION. What counts as a safe run (spec 10_state.md R21, R26; 60_exceptions.md R89, R103). -/

namespace Sys2Proof.Machine

/-- A state some run from the reset state leads to, whatever events the environment presents (R11, R26, R100). -/
inductive Reachable : State → Prop where
  | reset (ws : List EventWord) : Reachable (State.reset.withInput ws)
  | step {s t : State} : Reachable s → Sys2Proof.Machine.step s = .next t → Reachable t

/-- No number of steps from `s` ends in a fault or a refusal (R103). -/
def State.Safe (s : State) : Prop := ∀ k, ∃ t, Host.Core.run core k s = .next t

/-- The buffer that holds exactly the bytes `bs`, in canonical form. -/
def Memory.ofBytes (bs : List Byte) : Memory := (List.range bs.length).zip bs

end Sys2Proof.Machine
end

