-- ==== Sys2Proof/Certificates/Slice0/Obligations.lean ====
section
/-! DEFINITION. The statements for the provers. Each docstring names the rule of spec/ it formalises. Where the spec marks
a rule as its own inference ([derived: ...]) or choice ([decision: ...]) the docstring says so, and the statement's
basis in OBLIGATIONS.json is 'derived'. -/

open Sys2Proof Sys2Proof.Machine

/-! ### Encoding -/

/-- R47 to R51 (choices D2, D3 of the spec, and the spec's inference R51): every event's canonical word decodes to it,
also through the table's numbering, and every word decodes to the event whose canonical word R49 and R50 give. -/
def Obligations.DecodeAndEncodeAgree : Prop :=
  (∀ i : Instr, i.wf = true → decodeEvent (encode i) = i ∧ decodeTableWord 16 (encode i).toNat = some i) ∧
  (∀ w : EventWord, encode (decodeEvent w) = canonicalWord w)

/-- R51 (the spec's inference from D2, D3): every one of the 1024 words is one event; FEED is `0x100` to `0x1FF`, IDLE
`0x000` to `0x0FF`, RESET `0x200` to `0x3FF`, and the ignored bits do not count. -/
def Obligations.EventWordsSplitIntoThreeRanges : Prop :=
  ∀ w : EventWord,
    (decodeEvent w = .idle ↔ w.toNat ≤ 0x0FF) ∧
    (∀ b : Byte, decodeEvent w = .feed b ↔ w.toNat = 0x100 + b.toNat) ∧
    (decodeEvent w = .reset ↔ 0x200 ≤ w.toNat)

/-- R48 to R50 (D2, D3) against the opcode table: a word matches the row of an event exactly when it decodes to an
event of that row. So no two rows overlap and none is missing. -/
def Obligations.WordMatchesRowOfItsEvent : Prop :=
  ∀ (w : EventWord) (i : Instr), i.row.admits w = true ↔ (decodeEvent w).row = i.row

/-- R47 and R50 (D2, D3): `rst` wins over `in_valid`, `in_valid` presents `in_data`. -/
def Obligations.PortSignalsDecode : Prop :=
  ∀ (rst inValid : Bool) (d : Byte),
    decodeEvent (EventWord.ofPorts rst inValid d) = if rst then .reset else if inValid then .feed d else .idle

/-- Words written out from R48 to R50 (they are those of 95_test_vectors.md T14). -/
def Obligations.SampleWordsDecode : Prop :=
  decodeEvent 0b0000000000#10 = .idle ∧ decodeEvent 0b0011111111#10 = .idle ∧
  decodeEvent 0b0100000000#10 = .feed 0x00 ∧ decodeEvent 0b0100001010#10 = .feed 0x0A ∧
  decodeEvent 0b0111111111#10 = .feed 0xFF ∧ decodeEvent 0b1000000000#10 = .reset ∧
  decodeEvent 0b1011111111#10 = .reset ∧ decodeEvent 0b1100000000#10 = .reset ∧
  decodeEvent 0b1111111111#10 = .reset

/-- R54 and R55 (D5 and log 12): a line of the trace notation, also with a comment after it, reads back as the line it
was printed from. -/
def Obligations.TraceLinesReadBack : Prop :=
  ∀ (l : TraceLine) (comment : List Char),
    parseLine l.print = some l ∧ parseLine (l.print ++ ' ' :: ';' :: comment) = some l

/-! ### Reset and the invariants -/

/-- R25 and R105 (D9, and the spec's inference): what the reset state holds. -/
def Obligations.ResetStateIsCleared : Prop :=
  State.reset.buf = [] ∧ State.reset.exp = none ∧ State.reset.out = none ∧
  State.reset.len = 0 ∧ State.reset.phase = .awaitingHeader ∧ State.reset.expKnown = false

/-- R21 (the spec's inference): the reset state satisfies I1 to I4, whatever words are presented (log 1). -/
def Obligations.InvariantsHoldAtReset : Prop :=
  ∀ ws : List EventWord, (State.reset.withInput ws).Inv

/-- R21 (the spec's inference): a step from any state that satisfies I1 to I4, over a canonical buffer, leads to such a
state. -/
def Obligations.EveryStepKeepsInvariants : Prop :=
  ∀ s t : State, s.Inv → step s = .next t → t.Inv

/-- R26 (the spec's inference): the reachable pairs of `buf` and `exp`, exactly. -/
def Obligations.ReachableStatesExactly : Prop :=
  ∀ (buf : Memory) (exp : Option Len9),
    (∃ s, Reachable s ∧ s.buf = buf ∧ s.exp = exp) ↔
      (buf = [] ∧ exp = none) ∨
      (∃ a : Byte, buf = [(0, a)] ∧ exp = none) ∨
      (∃ (bs : List Byte) (n : Byte), 2 ≤ bs.length ∧ bs[1]? = some n ∧ bs.length < n.toNat + 3 ∧
        buf = (List.range bs.length).zip bs ∧ exp = some (BitVec.ofNat 9 (n.toNat + 3)))

/-- R89: no event faults and none is refused, in any run from the reset state, nor from any other state that satisfies
R21. -/
def Obligations.NoStepEverStops : Prop :=
  ∀ s : State, Reachable s ∨ s.Inv → s.Safe

/-- R16: the phase is read off the number of bytes, and in AwaitingBody the expected length is known. -/
def Obligations.PhaseFollowsLength : Prop :=
  ∀ s : State,
    (s.phase = .awaitingHeader ↔ s.len < 2) ∧ (s.phase = .awaitingBody ↔ 2 ≤ s.len) ∧
    (s.Inv → s.phase = .awaitingBody → ∃ n, s.exp = some n)

/-- R66 (the spec's inference): where FEED compares, `==` and `>=` agree, and the 9-bit comparison is the comparison of
the numbers. -/
def Obligations.LengthComparisonsAgree : Prop :=
  ∀ (s : State) (n : Len9), s.Inv → 2 ≤ s.len → s.exp = some n →
    (s.len + 1 = n.toNat ↔ n.toNat ≤ s.len + 1) ∧
    (BitVec.ofNat 9 (s.len + 1) = n ↔ s.len + 1 = n.toNat)

/-! ### The events -/

/-- R60: FEED in phase AwaitingHeader appends, sets `exp` at 2 bytes, does not wrap and does not emit. -/
def Obligations.FeedInAwaitingHeader : Prop :=
  ∀ (b : Byte) (s : State), s.Inv → s.len < 2 →
    exec (.feed b) s = .next
      { s with
        buf := s.buf ++ [(s.len, b)]
        exp := if s.len + 1 = 2 then some (b.zeroExtend 9 + 3#9) else none
        out := none } ∧
    (b.zeroExtend 9 + 3#9).toNat = b.toNat + 3

/-- R61: FEED in phase AwaitingBody appends, compares the new length with `exp` by equality, and on equality emits the
whole buffer, the new byte included, and clears. -/
def Obligations.FeedInAwaitingBody : Prop :=
  ∀ (b : Byte) (s : State) (n : Len9), s.Inv → 2 ≤ s.len → s.exp = some n →
    exec (.feed b) s = .next
      (if s.len + 1 = n.toNat then { s with buf := [], exp := none, out := some (s.buf.bytes ++ [b]) }
       else { s with buf := s.buf ++ [(s.len, b)], out := none })

/-- R63 (the spec's inference): R60 and R61 in one formulation over the byte sequence. -/
def Obligations.FeedInOneFormulation : Prop :=
  ∀ (b : Byte) (s : State), s.Inv →
    exec (.feed b) s = .next
      (match (s.buf.bytes ++ [b])[1]? with
       | none => { s with buf := Memory.ofBytes (s.buf.bytes ++ [b]), exp := none, out := none }
       | some n =>
         if 3 ≤ (s.buf.bytes ++ [b]).length ∧ (s.buf.bytes ++ [b]).length = n.toNat + 3 then
           { s with buf := [], exp := none, out := some (s.buf.bytes ++ [b]) }
         else
           { s with
             buf := Memory.ofBytes (s.buf.bytes ++ [b])
             exp := some (BitVec.ofNat 9 (n.toNat + 3))
             out := none })

/-- The model's choice for U1, R26 and D19 (log 4): FEED is refused by name exactly in the states that violate R21. -/
def Obligations.FeedRefusedOnlyOutsideInvariants : Prop :=
  ∀ (b : Byte) (s : State), exec (.feed b) s = .refused .outsideInvariants ↔ ¬ s.Inv

/-- R59 (D6): IDLE changes neither `buf` nor `exp` and has no output, in every state. The words still to be presented
are untouched (log 1). -/
def Obligations.IdleOnlyClearsOutput : Prop :=
  ∀ s : State, exec .idle s = .next { s with out := none }

/-- R62 and R105 (D3, and the spec's inference): RESET clears `buf` and `exp` and has no output, from every state,
whatever it holds (R106). The words still to be presented are untouched (log 1). -/
def Obligations.ResetClearsFromAnyState : Prop :=
  ∀ s : State, exec .reset s = .next { s with buf := [], exp := none, out := none }

/-- R74 (the spec's inference): the transition table. -/
def Obligations.TransitionTable : Prop :=
  ∀ (i : Instr) (s t : State), s.Inv → exec i s = .next t →
    match i with
    | .feed b =>
      (s.len = 0 → t.phase = .awaitingHeader ∧ t.len = 1 ∧ t.exp = none ∧ t.out = none) ∧
      (s.len = 1 → t.phase = .awaitingBody ∧ t.len = 2 ∧ t.exp = some (b.zeroExtend 9 + 3#9) ∧ t.out = none) ∧
      (2 ≤ s.len → s.len ≤ 257 ∧ ∃ n, s.exp = some n ∧
        (s.len + 1 < n.toNat ∧ t.phase = .awaitingBody ∧ t.len = s.len + 1 ∧ t.exp = some n ∧ t.out = none ∨
         s.len + 1 = n.toNat ∧ t.phase = .awaitingHeader ∧ t.len = 0 ∧ t.exp = none ∧
           ∃ f, t.out = some f ∧ f.length = n.toNat))
    | .idle => t.phase = s.phase ∧ t.len = s.len ∧ t.exp = s.exp ∧ t.out = none
    | .reset => t.phase = .awaitingHeader ∧ t.len = 0 ∧ t.exp = none ∧ t.out = none

/-- The frame of FEED (R30, R60, R61): without an emission it stores at offset `len` only, every other offset reads as
before, and `exp` changes at the second byte only; with an emission no offset holds a byte. The words still to be
presented are untouched (log 1). -/
def Obligations.FeedFrame : Prop :=
  ∀ (b : Byte) (s t : State), exec (.feed b) s = .next t →
    t.input = s.input ∧
    (t.out = none →
      t.buf.byteAt s.len = some b ∧ (∀ a, a ≠ s.len → t.buf.byteAt a = s.buf.byteAt a) ∧
      (s.len ≠ 1 → t.exp = s.exp)) ∧
    (∀ f, t.out = some f → (∀ a, t.buf.byteAt a = none) ∧ t.exp = none)

/-- The frame of IDLE and RESET (R59, R62): IDLE stores nothing, every offset reads as before; RESET stores nothing, no
offset holds a byte; neither touches the words still to be presented (log 1). -/
def Obligations.IdleAndResetFrame : Prop :=
  ∀ s t : State,
    (exec .idle s = .next t → (∀ a, t.buf.byteAt a = s.buf.byteAt a) ∧ t.exp = s.exp ∧ t.input = s.input) ∧
    (exec .reset s = .next t → (∀ a, t.buf.byteAt a = none) ∧ t.input = s.input)

/-- R13: only FEED appends to `buf`, only an emission or RESET clears it, nothing else changes it; its length between
steps is 0 to 257 and its reset value is `[]`. -/
def Obligations.BufferOnlyGrowsOrClears : Prop :=
  (∀ (i : Instr) (s t : State), s.Inv → exec i s = .next t →
    (match i with
     | .feed b => (t.out = none ∧ t.buf = s.buf ++ [(s.len, b)]) ∨ (t.out ≠ none ∧ t.buf = [])
     | .idle => t.buf = s.buf
     | .reset => t.buf = []) ∧
    s.buf.len ≤ 257 ∧ t.buf.len ≤ 257) ∧
  State.reset.buf = []

/-- R14: `exp` is written in three places (the FEED that brings `len` to 2, an emission, RESET), and a known expected
length is 3 to 258. -/
def Obligations.ExpectedLengthHasThreeWriters : Prop :=
  ∀ (i : Instr) (s t : State), s.Inv → exec i s = .next t →
    (t.exp ≠ s.exp →
      (∃ b, i = .feed b ∧ t.len = 2 ∧ ∃ n, t.buf.byteAt 1 = some n ∧ t.exp = some (n.zeroExtend 9 + 3#9)) ∨
      (t.out ≠ none ∧ t.exp = none) ∨
      (i = .reset ∧ t.exp = none)) ∧
    (∀ n, t.exp = some n → 3 ≤ n.toNat ∧ n.toNat ≤ 258)

/-- R45: the FEED of the length byte, whatever its value and whatever byte stands before it, sets the expected length to
the unsigned length byte plus 3, without a wrap: `0x00` gives 3, `0x02` gives 5, `0xFF` gives 258. -/
def Obligations.LengthByteGivesExpectedLength : Prop :=
  (∀ (n : Byte) (s : State), s.Inv → s.len = 1 →
    ∃ (t : State) (e : Len9), exec (.feed n) s = .next t ∧ t.buf.byteAt 1 = some n ∧ t.exp = some e ∧
      e = n.zeroExtend 9 + 3#9 ∧ e.toNat = n.toNat + 3) ∧
  ((0x00 : Byte).zeroExtend 9 + 3#9).toNat = 3 ∧ ((0x02 : Byte).zeroExtend 9 + 3#9).toNat = 5 ∧
  ((0xFF : Byte).zeroExtend 9 + 3#9).toNat = 258

/-- R67 (the spec's inference): a step has an output exactly when it is the FEED of the last byte of a frame in phase
AwaitingBody, and the output is then the accumulated bytes and that byte. -/
def Obligations.OutputExactlyAtLastByte : Prop :=
  ∀ (i : Instr) (s t : State) (f : Frame), s.Inv → exec i s = .next t →
    (t.out = some f ↔
      ∃ (b : Byte) (n : Len9), i = .feed b ∧ 2 ≤ s.len ∧ s.exp = some n ∧ s.len + 1 = n.toNat ∧
        f = s.buf.bytes ++ [b])

/-! ### The buffer -/

/-- R29: MemRead is defined exactly when `addr + n <= len`, and gives the `n` bytes in offset order. -/
def Obligations.MemReadGivesBytesInOrder : Prop :=
  ∀ (m : Memory) (addr n : Nat), m.wf →
    ((∃ bs, m.memRead addr n = some bs) ↔ addr + n ≤ m.len) ∧
    (∀ bs, m.memRead addr n = some bs → bs.length = n ∧ ∀ i, i < n → bs[i]? = m.byteAt (addr + i))

/-- R30: MemWrite is defined exactly for `addr == len`; it appends the byte, which then reads back, and no byte already
accumulated is overwritten. The buffer stays canonical. -/
def Obligations.MemWriteAppendsAtLength : Prop :=
  ∀ (m : Memory) (addr : Nat) (v : Byte), m.wf →
    ((∃ m', m.memWrite addr v = some m') ↔ addr = m.len) ∧
    (∀ m', m.memWrite addr v = some m' →
      m'.bytes = m.bytes ++ [v] ∧ m'.byteAt addr = some v ∧ m'.len = m.len + 1 ∧ m'.wf ∧
      ∀ a, a < m.len → m'.byteAt a = m.byteAt a)

/-- R31: Clear clears `buf` and `exp` together, and no step clears one of the two without the other. -/
def Obligations.ClearIsBothTogether : Prop :=
  (∀ s : State, s.clear = { s with buf := [], exp := none }) ∧
  (∀ (i : Instr) (s t : State), s.Inv → exec i s = .next t →
    (s.buf ≠ [] → t.buf = [] → t.exp = none) ∧ (s.exp ≠ none → t.exp = none → t.buf = []))

/-! ### Steps -/

/-- R58, R91 and the model's conventions log 1 and log 2: a step runs the event that the next word of the input decodes
to, with that word taken from the input; with no word left it is an IDLE step. -/
def Obligations.StepRunsDecodedEvent : Prop :=
  (∀ (s : State) (w : EventWord) (ws : List EventWord), s.input = w :: ws →
    step s = exec (decodeEvent w) { s with input := ws }) ∧
  (∀ s : State, s.input = [] → step s = exec .idle s)

/-- The model's convention log 7: a word placed by `withFetchWord` is the one the next step runs, and the words already
lined up follow it. -/
def Obligations.PlacedWordRunsNext : Prop :=
  ∀ (s : State) (w : EventWord), step (s.withFetchWord 16 w.toNat) = exec (decodeEvent w) s

/-- R11 and R58 with the model's convention log 1: the steps that take the words of the input are the run over the
events those words decode to, whatever comes of it. -/
def Obligations.StepsAreTheRunOfTheInput : Prop :=
  ∀ s : State, stepRun s.input.length s = run (s.input.map decodeEvent) { s with input := [] }

/-- R23 and R110 (the spec's inference): the output of a step is not state: no step depends on it. -/
def Obligations.NoStepReadsTheOutput : Prop :=
  ∀ (s : State) (o : Option Frame), step { s with out := o } = step s

/-- R17: `buf` and `exp` are all a run depends on, for every sequence of events and from every state. -/
def Obligations.OnlyBufferAndExpectedLengthMatter : Prop :=
  ∀ (s s' : State) (is : List Instr), s.buf = s'.buf → s.exp = s'.exp →
    ∀ (t : State) (outs : List (Option Frame)), run is s = .next (t, outs) →
      ∃ t', run is s' = .next (t', outs) ∧ t'.buf = t.buf ∧ t'.exp = t.exp

/-- R105 and R106 (the spec's inference, and D9): after a RESET nothing depends on what the state held, and an emission
leaves what RESET leaves, but for the output of its own step. -/
def Obligations.ResetForgetsEverything : Prop :=
  (∀ (s s' : State) (is : List Instr), s.input = s'.input → run (.reset :: is) s = run (.reset :: is) s') ∧
  (∀ (b : Byte) (s t : State) (f : Frame), exec (.feed b) s = .next t → t.out = some f →
    exec .reset s = .next { t with out := none })

/-! ### Laws of a run -/

/-- R72: the zero-payload frame is emitted in the third step and not before. -/
def Obligations.ZeroPayloadFrameAfterThreeBytes : Prop :=
  run [.feed 0x05, .feed 0x00, .feed 0x00] State.reset =
    .next ({ State.reset with out := some [0x05, 0x00, 0x00] }, [none, none, some [0x05, 0x00, 0x00]])

/-- R68 (the spec's inference): every frame a step emits has 3 to 258 bytes and the length its second byte declares. -/
def Obligations.EmittedFramesAreWellFormed : Prop :=
  ∀ (s t : State) (f : Frame), s.Inv → step s = .next t → t.out = some f →
    3 ≤ f.length ∧ f.length ≤ 258 ∧ ∃ n : Byte, f[1]? = some n ∧ f.length = n.toNat + 3

/-- R85 (the spec's inference; 90_conflicts.md C1): every frame a step emits decodes, to the fields of its bytes. -/
def Obligations.EmittedFramesDecode : Prop :=
  ∀ (s t : State) (f : Frame), s.Inv → step s = .next t → t.out = some f →
    ∃ q : Codec.ResponseFrame, Codec.decode f = .ok q ∧
      f = [q.responseCode, q.payloadLength, q.crc] ++ q.payload

/-- R69 and R114 (the spec's inference): every byte fed since the last RESET is in exactly one emitted frame or still in
`buf`, in the order fed; if no RESET is among the events, the bytes the buffer held at the start come first. The buffer
is empty exactly when these bytes are the emitted frames, one after the other. -/
def Obligations.BytesAreConserved : Prop :=
  ∀ (s : State) (is : List Instr), s.Inv → ∃ (t : State) (outs : List (Option Frame)),
    run is s = .next (t, outs) ∧ outs.length = is.length ∧
    let frames := emissions (outs.drop (is.length - (sinceReset is).length))
    let fed := (if .reset ∈ is then [] else s.buf.bytes) ++ fedBytes (sinceReset is)
    frames.flatten ++ t.buf.bytes = fed ∧ (t.buf = [] ↔ frames.flatten = fed)

/-- R70 (the spec's inference): neither IDLE steps nor the grouping into chunks changes the emissions or the final `buf`
and `exp`. -/
def Obligations.PausesAndChunksDoNotMatter : Prop :=
  (∀ (s : State) (is js : List Instr), s.Inv → is.filter (· ≠ .idle) = js.filter (· ≠ .idle) →
    ∃ (t u : State) (os ps : List (Option Frame)),
      run is s = .next (t, os) ∧ run js s = .next (u, ps) ∧
      emissions os = emissions ps ∧ t.buf = u.buf ∧ t.exp = u.exp) ∧
  (∀ (s : State) (chunks : List (List Byte)), feedChunks chunks s = feedN chunks.flatten s)

/-- R71 (the spec's inference): well-formed frames fed back to back from the reset state are emitted one by one, each in
the step of its last byte, and the run ends in the reset state. -/
def Obligations.BackToBackFramesEmittedInOrder : Prop :=
  ∀ ws : List Frame, (∀ w ∈ ws, w.wf) →
    ∃ t : State, run (ws.flatten.map .feed) State.reset =
        .next (t, ws.flatMap fun w => List.replicate (w.length - 1) none ++ [some w]) ∧
      t.buf = [] ∧ t.exp = none

/-- R86 (the spec's inference): a well-formed frame fed from the reset state in any chunks is emitted whole and alone,
and decodes to its fields. -/
def Obligations.WellFormedFrameArrivesAndDecodes : Prop :=
  ∀ (w : Frame) (chunks : List (List Byte)), w.wf → chunks.flatten = w →
    ∃ t : State, feedChunks chunks State.reset = .next (t, [w]) ∧ t.buf = [] ∧ t.exp = none ∧
      ∃ q : Codec.ResponseFrame, Codec.decode w = .ok q ∧ q.wire = w

/-- R73: a pause of any length changes nothing and emits nothing, what is fed after it goes on from the same bytes, and
without a RESET the bytes held are never discarded. -/
def Obligations.PauseKeepsPartialFrame : Prop :=
  ∀ (s : State) (k : Nat), s.Inv →
    (∃ t, run (List.replicate k .idle) s = .next (t, List.replicate k none) ∧ t.buf = s.buf ∧ t.exp = s.exp) ∧
    (∀ (is : List Instr) (t : State) (outs : List (Option Frame)), run is s = .next (t, outs) →
      (∃ u, run (List.replicate k .idle ++ is) s = .next (u, List.replicate k none ++ outs) ∧
        u.buf = t.buf ∧ u.exp = t.exp) ∧
      (.reset ∉ is → ∃ later, (emissions outs).flatten ++ t.buf.bytes = s.buf.bytes ++ later))

/-- R55: FEEDN is the FEED events of its operands, in order, and its output is the emission sequence of those steps. -/
def Obligations.FeedNIsTheFeedsInOrder : Prop :=
  ∀ (bs : List Byte) (s : State),
    feedN bs s = andThen (run (bs.map .feed) s) fun r => .next (r.1, emissions r.2)

/-- R64 (D7; the bound of 90_conflicts.md C9): a chunk of `k` bytes completes at most `(len + k) / 3` frames. -/
def Obligations.ChunkCompletesBoundedFrames : Prop :=
  ∀ (bs : List Byte) (s : State), s.Inv →
    ∃ (t : State) (fs : List Frame), feedN bs s = .next (t, fs) ∧ fs.length ≤ (s.len + bs.length) / 3

/-- R120 and R112 (the spec's inference): a frame begun is emitted in the step of the last byte it waits for, with the
bytes held first, and before that nothing is emitted. -/
def Obligations.FrameCompletesWithItsLastByte : Prop :=
  ∀ (s : State) (n : Len9) (bs : List Byte), s.Inv → 2 ≤ s.len → s.exp = some n →
    (s.len + bs.length = n.toNat →
      ∃ t, run (bs.map .feed) s =
          .next (t, List.replicate (bs.length - 1) none ++ [some (s.buf.bytes ++ bs)]) ∧
        t.buf = [] ∧ t.exp = none) ∧
    (s.len + bs.length < n.toNat →
      ∃ t, run (bs.map .feed) s = .next (t, List.replicate bs.length none) ∧
        t.buf.bytes = s.buf.bytes ++ bs ∧ t.exp = some n)

/-- R118 (the spec's inference): two emissions of a run are at least 3 steps apart. -/
def Obligations.EmissionsAreThreeStepsApart : Prop :=
  ∀ (s t : State) (is : List Instr) (outs : List (Option Frame)) (i j : Nat) (f g : Frame),
    s.Inv → run is s = .next (t, outs) → i < j → outs[i]? = some (some f) → outs[j]? = some (some g) → i + 3 ≤ j

/-- R11 and R103 (D1, and the spec's inference; log 1): the first `k` steps of an infinite run are the finite run over
the first `k` events, whatever comes of it. From a state that satisfies R21 an infinite run never stops, and its output
trace has in each step the output the finite runs have there. -/
def Obligations.InfiniteRunExtendsItsFiniteRuns : Prop :=
  (∀ (ws : Nat → EventWord) (s : State) (k : Nat), prefixRun ws s k = run (eventsBefore ws k) s) ∧
  (∀ (ws : Nat → EventWord) (s : State) (k : Nat), s.Inv →
    ∃ (t : State) (outs : List (Option Frame)), prefixRun ws s k = .next (t, outs) ∧ t.Inv ∧ outs.length = k ∧
      ∀ (j : Nat) (o : Option Frame), outs[j]? = some o → outputAt ws s j = .next o)

/-- R11 (D1): the emission sequence of an infinite run is the subsequence of the frames of its output trace, in order:
its frame number `m` is the frame number `m` of every finite run that is long enough, there is at most one, and no number
before it is left out. -/
def Obligations.InfiniteRunEmitsInOrder : Prop :=
  ∀ (ws : Nat → EventWord) (s : State), s.Inv →
    (∀ (m : Nat) (f : Frame), IsEmission ws s m f ↔
      ∃ (k : Nat) (t : State) (outs : List (Option Frame)),
        prefixRun ws s k = .next (t, outs) ∧ (emissions outs)[m]? = some f) ∧
    (∀ (m : Nat) (f g : Frame), IsEmission ws s m f → IsEmission ws s m g → f = g) ∧
    (∀ (m j : Nat) (f : Frame), IsEmission ws s m f → j < m → ∃ g, IsEmission ws s j g)

/-- R11 and R120 (D1, and the spec's inference): a stream that supplies a byte in every step without end has frames
emitted without end. -/
def Obligations.EndlessBytesEmitEndlessFrames : Prop :=
  ∀ (ws : Nat → EventWord) (s : State), s.Inv → (∀ k, ∃ b, decodeEvent (ws k) = .feed b) →
    ∀ m, ∃ f, IsEmission ws s m f

/-- R41 and R100 (log 15): instances side by side. Each ends as if its own events were all there were. -/
def Obligations.InstancesShareNothing : Prop :=
  ∀ (es : List (Nat × Instr)) (ss : List State), (∀ s ∈ ss, s.Inv) →
    ∃ tt : List State, runAt es ss = .next tt ∧ tt.length = ss.length ∧
      ∀ (k : Nat) (s : State), ss[k]? = some s →
        ∃ (t : State) (outs : List (Option Frame)), run (eventsOf k es) s = .next (t, outs) ∧ tt[k]? = some t

/-- R53 (D4, U3; log 9): the output signals carry the output of a step, `out_valid` says whether there is one, and every
signal the spec leaves unspecified takes an arbitrary value. -/
def Obligations.PortsCarryTheOutput : Prop :=
  ∀ (s t : State) (u : OutPorts), s.Inv → step s = .next t →
    (drivePorts u t.out).read = t.out ∧
    ((drivePorts u t.out).outValid = true ↔ ∃ f, t.out = some f) ∧
    (t.out = none → (drivePorts u t.out).outLen = u.outLen ∧ (drivePorts u t.out).outData = u.outData) ∧
    (∀ f, t.out = some f → (drivePorts u t.out).outLen.toNat = f.length ∧
      ∀ i (_ : i < 258), (i < f.length → f[i]? = some (drivePorts u t.out).outData[i]) ∧
        (f.length ≤ i → (drivePorts u t.out).outData[i] = u.outData[i]))

/-! ### The Codec -/

/-- R78: the layout of an encoded request, its length 4 to 259, and the worked example. -/
def Obligations.EncodeLaysOutTheRequest : Prop :=
  (∀ r : Codec.RequestFrame,
    Codec.encode r = [r.targetId, r.opCode, BitVec.ofNat 8 r.payload.length, r.crc] ++ r.payload ∧
    (Codec.encode r).length = r.payload.length + 4 ∧ r.payload.length ≤ 255) ∧
  (∀ h, Codec.encode (Codec.RequestFrame.build 0x01 0x01 [0x01, 0x02, 0x03, 0x04, 0x05] h 0x00) =
    [0x01, 0x01, 0x05, 0x00, 0x01, 0x02, 0x03, 0x04, 0x05])

/-- R79: the length byte of an encoded request is the length of its payload, and tells the length of the whole. -/
def Obligations.EncodeDerivesTheLengthByte : Prop :=
  ∀ r : Codec.RequestFrame, ∃ n : Byte, (Codec.encode r)[2]? = some n ∧
    n.toNat = r.payload.length ∧ (Codec.encode r).length = n.toNat + 4

/-- R80: a buffer of `payload_length + 3` bytes decodes to the fields at its offsets. -/
def Obligations.DecodeReadsTheFields : Prop :=
  ∀ (s : List Byte) (n : Byte), s[1]? = some n → s.length = n.toNat + 3 →
    ∃ q : Codec.ResponseFrame, Codec.decode s = .ok q ∧
      s[0]? = some q.responseCode ∧ q.payloadLength = n ∧ s[2]? = some q.crc ∧ q.payload = s.drop 3

/-- R81: `decode` fails, with MalformedFrame, exactly on an input shorter than 3 bytes or of a length other than 3 plus
its second byte. -/
def Obligations.DecodeFailsOnItsTwoCauses : Prop :=
  ∀ s : List Byte,
    Codec.decode s = .error .malformedFrame ↔
      s.length < 3 ∨ ∃ n : Byte, s[1]? = some n ∧ s.length ≠ 3 + n.toNat

/-- R84 (the spec's inference): `decode` is exact and injective, and reads back every response that is built. -/
def Obligations.DecodeIsExactAndInjective : Prop :=
  (∀ (s : List Byte) (q : Codec.ResponseFrame), Codec.decode s = .ok q →
    s = [q.responseCode, q.payloadLength, q.crc] ++ q.payload ∧ q.payload.length = q.payloadLength.toNat) ∧
  (∀ (s s' : List Byte) (q : Codec.ResponseFrame), Codec.decode s = .ok q → Codec.decode s' = .ok q → s = s') ∧
  (∀ (code crc : Byte) (p : List Byte) (h : payloadWf p),
    Codec.decode ([code, BitVec.ofNat 8 p.length, crc] ++ p) = .ok (Codec.ResponseFrame.build code crc p h))

/-- R82: the `crc` byte has no bearing on whether a buffer decodes nor on any other field, and `encode` copies it. -/
def Obligations.CrcIsPassedThrough : Prop :=
  (∀ (s : List Byte) (c : Byte),
    (∀ q, Codec.decode s = .ok q → ∃ q', Codec.decode (s.set 2 c) = .ok q' ∧ q'.responseCode = q.responseCode ∧
      q'.payloadLength = q.payloadLength ∧ q'.crc = c ∧ q'.payload = q.payload) ∧
    (Codec.decode s = .error .malformedFrame → Codec.decode (s.set 2 c) = .error .malformedFrame)) ∧
  (∀ (r : Codec.RequestFrame) (c : Byte),
    (Codec.encode r)[3]? = some r.crc ∧ Codec.encode { r with crc := c } = (Codec.encode r).set 3 c)

/-- R87 (the spec's inference): a request fed to the reassembler is framed by its `op_code`: its first `op_code + 3`
bytes come out as the first frame, or, if it has fewer, all of it stays in the buffer. -/
def Obligations.RequestIsFramedByItsOpCode : Prop :=
  ∀ r : Codec.RequestFrame,
    (r.opCode.toNat + 3 ≤ (Codec.encode r).length →
      ∃ (t : State) (fs : List Frame),
        feedN (Codec.encode r) State.reset = .next (t, (Codec.encode r).take (r.opCode.toNat + 3) :: fs)) ∧
    ((Codec.encode r).length < r.opCode.toNat + 3 →
      ∃ t : State, feedN (Codec.encode r) State.reset = .next (t, []) ∧ t.buf.bytes = Codec.encode r)
end

