-- ==== Sys2Proof/Laws/Config.lean ====
section
/-! SUPPORT. The values of the parameters and their relations (spec 00_scope.md R5, R6). -/

namespace Sys2Proof

@[simp] theorem Config.lenOffset_eq : Config.lenOffset = 1 := rfl
@[simp] theorem Config.hdrThreshold_eq : Config.hdrThreshold = 2 := rfl
@[simp] theorem Config.hdrBytes_eq : Config.hdrBytes = 3 := rfl
@[simp] theorem Config.maxPayload_eq : Config.maxPayload = 255 := rfl
@[simp] theorem Config.minFrame_eq : Config.minFrame = 3 := rfl
@[simp] theorem Config.maxFrame_eq : Config.maxFrame = 258 := rfl
@[simp] theorem Config.maxResting_eq : Config.maxResting = 257 := rfl
@[simp] theorem Config.requestHdrBytes_eq : Config.requestHdrBytes = 4 := rfl
@[simp] theorem Config.requestLenOffset_eq : Config.requestLenOffset = 2 := rfl

/-- `HDR_THRESHOLD` equals `LEN_OFFSET + 1` (R5). -/
theorem Config.threshold_after_length_byte : Config.hdrThreshold = Config.lenOffset + 1 := rfl

/-- The constraint `LEN_OFFSET + 2 <= HDR_BYTES`, by which no comparison is due in phase AwaitingHeader (R5). -/
theorem Config.length_byte_in_header : Config.lenOffset + 2 ≤ Config.hdrBytes := by decide

end Sys2Proof
end

