-- ==== Sys2Proof/Laws/Codec.lean ====
section
/-! SUPPORT. What the Codec answers: the length byte of a request, and the two outcomes of `decode`. -/

namespace Sys2Proof.Codec

@[simp] theorem RequestFrame.payloadLength_toNat (r : RequestFrame) :
    r.payloadLength.toNat = r.payload.length := by
  have : r.payload.length ≤ 255 := r.payload_wf
  rw [RequestFrame.payloadLength, BitVec.toNat_ofNat, Nat.mod_eq_of_lt (by omega)]

/-- An encoded request is its header and its payload (R7). -/
theorem encode_header_and_payload (r : RequestFrame) : (encode r).drop Config.requestHdrBytes = r.payload := rfl

@[simp] theorem encode_length (r : RequestFrame) : (encode r).length = r.payload.length + 4 := by
  simp [encode]

@[simp] theorem ResponseFrame.wire_length (q : ResponseFrame) : q.wire.length = q.payload.length + 3 := by
  simp [ResponseFrame.wire]

/-- Two response frames with the same fields are equal. -/
theorem ResponseFrame.ext_fields {p q : ResponseFrame} (h0 : p.responseCode = q.responseCode)
    (h1 : p.payloadLength = q.payloadLength) (h2 : p.crc = q.crc) (h3 : p.payload = q.payload) : p = q := by
  cases p
  cases q
  simp_all

/-- A wire form decodes to its frame. -/
theorem decode_wire (q : ResponseFrame) : decode q.wire = .ok q := by
  have h := q.length_eq
  have h1 : ¬ q.wire.length < Config.hdrBytes := by simp
  have h2 : ¬ q.wire.length ≠ Config.hdrBytes + q.payloadLength.toNat := by simp; omega
  simp only [decode, dif_neg h1]
  exact dif_neg h2

/-- What decodes is the wire form of its frame. -/
theorem decode_ok {s : List Byte} {q : ResponseFrame} (h : decode s = .ok q) : s = q.wire := by
  match s with
  | [] => cases h
  | [_] => cases h
  | [_, _] => cases h
  | a :: n :: c :: p =>
    have h1 : ¬ (a :: n :: c :: p).length < Config.hdrBytes := by simp
    simp only [decode, dif_neg h1] at h
    split at h
    · cases h
    · cases h
      rfl

end Sys2Proof.Codec
end

