-- ==== Sys2Proof/Laws/Decode.lean ====
section
/-! SUPPORT. The port signals of a word and the words of an event. -/

namespace Sys2Proof

variable (r v : Bool) (d : Byte)

@[simp] theorem EventWord.rst_ofPorts : EventWord.rst (EventWord.ofPorts r v d) = r := by
  cases r <;> cases v <;> revert d <;> decide

@[simp] theorem EventWord.inValid_ofPorts : EventWord.inValid (EventWord.ofPorts r v d) = v := by
  cases r <;> cases v <;> revert d <;> decide

@[simp] theorem EventWord.inData_ofPorts : EventWord.inData (EventWord.ofPorts r v d) = d := by
  cases r <;> cases v <;> revert d <;> decide

/-- A word is its three signals (R47). -/
theorem EventWord.eq_ofPorts (w : EventWord) :
    w = EventWord.ofPorts (EventWord.rst w) (EventWord.inValid w) (EventWord.inData w) := by
  revert w
  decide

/-- The row of an event admits a word by its two control signals (R48 to R50). -/
theorem admits_iff (i : Instr) (w : EventWord) :
    i.row.admits w = match i with
      | .feed _ => !EventWord.rst w && EventWord.inValid w
      | .idle => !EventWord.rst w && !EventWord.inValid w
      | .reset => EventWord.rst w := by
  cases i <;> (revert w; simp only [Instr.row]; decide)

/-- The canonical word of FEED `b` (R48). -/
theorem encode_feed : encode (.feed d) = EventWord.ofPorts false true d := by
  revert d
  decide

theorem encode_idle : encode .idle = EventWord.ofPorts false false 0 := by decide

theorem encode_reset : encode .reset = EventWord.ofPorts true false 0 := by decide

end Sys2Proof
end

