-- ==== Sys2Proof/Laws/State.lean ====
section
/-! SUPPORT. One lemma for each field of each update of the state, and for the state after reset. -/

namespace Sys2Proof.Machine

variable (s : State) (b : Byte) (ws : List EventWord)

@[simp] theorem State.quiet_buf : s.quiet.buf = s.buf := rfl
@[simp] theorem State.quiet_exp : s.quiet.exp = s.exp := rfl
@[simp] theorem State.quiet_out : s.quiet.out = none := rfl
@[simp] theorem State.quiet_input : s.quiet.input = s.input := rfl
@[simp] theorem State.quiet_len : s.quiet.len = s.len := rfl

@[simp] theorem State.append_buf : (s.append b).buf = s.buf.append b := rfl
@[simp] theorem State.append_exp : (s.append b).exp = s.exp := rfl
@[simp] theorem State.append_out : (s.append b).out = s.out := rfl
@[simp] theorem State.append_input : (s.append b).input = s.input := rfl

@[simp] theorem State.learnLength_buf : s.learnLength.buf = s.buf := rfl
@[simp] theorem State.learnLength_exp : s.learnLength.exp = (s.buf.byteAt 1).map expectedLen := rfl
@[simp] theorem State.learnLength_out : s.learnLength.out = s.out := rfl
@[simp] theorem State.learnLength_input : s.learnLength.input = s.input := rfl

@[simp] theorem State.clear_buf : s.clear.buf = [] := rfl
@[simp] theorem State.clear_exp : s.clear.exp = none := rfl
@[simp] theorem State.clear_out : s.clear.out = s.out := rfl
@[simp] theorem State.clear_input : s.clear.input = s.input := rfl

@[simp] theorem State.emit_buf : s.emit.buf = [] := rfl
@[simp] theorem State.emit_exp : s.emit.exp = none := rfl
@[simp] theorem State.emit_out : s.emit.out = s.buf.memRead 0 s.len := rfl
@[simp] theorem State.emit_input : s.emit.input = s.input := rfl

@[simp] theorem State.withInput_buf : (s.withInput ws).buf = s.buf := rfl
@[simp] theorem State.withInput_exp : (s.withInput ws).exp = s.exp := rfl
@[simp] theorem State.withInput_out : (s.withInput ws).out = s.out := rfl
@[simp] theorem State.withInput_input : (s.withInput ws).input = ws := rfl
@[simp] theorem State.withInput_len : (s.withInput ws).len = s.len := rfl

@[simp] theorem State.present_buf (w : EventWord) : (s.present w).buf = s.buf := rfl
@[simp] theorem State.present_exp (w : EventWord) : (s.present w).exp = s.exp := rfl
@[simp] theorem State.present_out (w : EventWord) : (s.present w).out = s.out := rfl
@[simp] theorem State.present_input (w : EventWord) : (s.present w).input = w :: s.input := rfl

@[simp] theorem State.reset_buf : State.reset.buf = [] := rfl
@[simp] theorem State.reset_exp : State.reset.exp = none := rfl
@[simp] theorem State.reset_out : State.reset.out = none := rfl
@[simp] theorem State.reset_input : State.reset.input = [] := rfl

/-- The invariants, written out. -/
theorem State.inv_iff :
    s.Inv ↔ s.buf.wf ∧ s.len ≤ 257 ∧ (s.exp = none ↔ s.len < 2) ∧
      (2 ≤ s.len → s.exp = (s.buf.byteAt 1).map expectedLen) ∧
      (2 ≤ s.len → ∀ n ∈ s.buf.byteAt 1, s.len < n.toNat + 3) := by
  simp only [State.Inv, State.inv, decide_eq_true_eq]
  exact Iff.rfl

/-- The invariants read `buf` and `exp` only. -/
theorem State.inv_congr {s t : State} (hb : s.buf = t.buf) (he : s.exp = t.exp) : s.inv = t.inv := by
  rw [Bool.eq_iff_iff]
  simp only [State.inv_iff, State.len, hb, he]

end Sys2Proof.Machine
end

