-- ==== Sys2Proof/Laws/Memory.lean ====
section
/-! SUPPORT. The laws of the buffer: its length and bytes after an append, read after write, and the canonical form,
which every operation keeps; and the value of the expected length. -/

namespace Sys2Proof.Machine

@[simp] theorem expectedLen_toNat (n : Byte) : (expectedLen n).toNat = n.toNat + 3 := by
  have := n.isLt
  simp [expectedLen, BitVec.toNat_add, BitVec.toNat_setWidth]
  omega

theorem expectedLen_inj {a b : Byte} (h : expectedLen a = expectedLen b) : a = b := by
  have := congrArg BitVec.toNat h
  simp at this
  exact BitVec.eq_of_toNat_eq this

variable {m m' : Memory} {v : Byte} {a n : Nat}

@[simp] theorem Memory.len_nil : Memory.len [] = 0 := rfl

@[simp] theorem Memory.bytes_nil : Memory.bytes [] = [] := rfl

@[simp] theorem Memory.bytes_length : m.bytes.length = m.len := by simp [Memory.bytes, Memory.len]

@[simp] theorem Memory.len_append : (m.append v).len = m.len + 1 := by simp [Memory.append, Memory.len]

@[simp] theorem Memory.bytes_append : (m.append v).bytes = m.bytes ++ [v] := by
  simp [Memory.append, Memory.bytes]

theorem Memory.wf_nil : Memory.wf [] := rfl

/-- An append keeps the canonical form. -/
theorem Memory.wf_append (h : m.wf) : (m.append v).wf := by
  simp only [Memory.wf, Memory.append, Memory.len, List.map_append, List.length_append] at *
  simp [h, List.range_succ]

/-- The canonical form has strictly rising offsets. -/
theorem Memory.wf_rising (h : m.wf) : (m.map Prod.fst).Pairwise (· < ·) := by
  rw [h]
  exact List.pairwise_lt_range

theorem Memory.eq_ofBytes (h : m.wf) : m = Memory.ofBytes m.bytes := by
  have hz : (m.map Prod.fst).zip (m.map Prod.snd) = m := by
    rw [← List.unzip_fst, ← List.unzip_snd]
    exact List.zip_unzip m
  rw [Memory.ofBytes, Memory.bytes, List.length_map]
  exact (by rw [← h, hz])

@[simp] theorem Memory.bytes_ofBytes (bs : List Byte) : (Memory.ofBytes bs).bytes = bs := by
  simp [Memory.bytes, Memory.ofBytes, List.map_snd_zip]

theorem Memory.wf_ofBytes (bs : List Byte) : (Memory.ofBytes bs).wf := by
  simp [Memory.wf, Memory.ofBytes, List.map_fst_zip]

/-- Two canonical buffers with the same bytes are equal. -/
theorem Memory.ext_bytes (h : m.wf) (h' : m'.wf) (hb : m.bytes = m'.bytes) : m = m' := by
  rw [Memory.eq_ofBytes h, Memory.eq_ofBytes h', hb]

theorem List.lookup_zip_range' (k : Nat) (bs : List Byte) (a : Nat) :
    List.lookup a ((List.range' k bs.length).zip bs) = if k ≤ a then bs[a - k]? else none := by
  induction bs generalizing k with
  | nil => simp
  | cons b bs ih =>
    simp only [List.length_cons, List.range'_succ, List.zip_cons_cons, List.lookup_cons, ih]
    obtain hb | hb := Bool.eq_false_or_eq_true (a == k)
    · simp [beq_iff_eq.mp hb]
    · have hne : a ≠ k := by simpa using hb
      simp only [hb]
      by_cases hk : k ≤ a
      · obtain ⟨d, rfl⟩ := Nat.exists_eq_add_of_lt (Nat.lt_of_le_of_ne hk (Ne.symm hne))
        simp [show k + d + 1 - k = d + 1 by omega, show k + d + 1 - (k + 1) = d by omega, hk]
      · simp [hk, show ¬ k + 1 ≤ a by omega]

/-- In canonical form the byte at an offset is the byte of the sequence at that offset. -/
theorem Memory.byteAt_eq (h : m.wf) : m.byteAt a = m.bytes[a]? := by
  conv => lhs; rw [Memory.eq_ofBytes h]
  simpa [Memory.byteAt, Memory.ofBytes, List.range_eq_range'] using List.lookup_zip_range' 0 m.bytes a

/-- Read after write: the appended byte is at offset `len`, every other offset reads as before. -/
theorem Memory.byteAt_append (h : m.wf) :
    (m.append v).byteAt a = if a = m.len then some v else m.byteAt a := by
  rw [Memory.byteAt_eq (Memory.wf_append h), Memory.byteAt_eq h, Memory.bytes_append, List.getElem?_append]
  rcases Nat.lt_trichotomy a m.len with hl | hl | hl
  · simp [hl, Nat.ne_of_lt hl]
  · simp [hl]
  · simp [Nat.not_lt.mpr (Nat.le_of_lt hl), Nat.ne_of_gt hl, List.getElem?_eq_none,
      show 1 ≤ a - m.len by omega]

/-- Reading the whole buffer gives its bytes. -/
@[simp] theorem Memory.memRead_all : m.memRead 0 m.len = some m.bytes := by
  have : m.bytes.take m.len = m.bytes := by rw [← Memory.bytes_length, List.take_length]
  simp [Memory.memRead, this]

/-- All MemRead can answer (R29). -/
theorem Memory.memRead_eq_some {bs : List Byte} :
    m.memRead a n = some bs ↔ a + n ≤ m.len ∧ bs = (m.bytes.drop a).take n := by
  unfold Memory.memRead
  split <;> simp_all [eq_comm]

/-- All MemWrite can answer (R30). -/
theorem Memory.memWrite_eq_some : m.memWrite a v = some m' ↔ a = m.len ∧ m' = m.append v := by
  unfold Memory.memWrite
  split <;> simp_all [eq_comm]

/-- MemWrite keeps the canonical form. -/
theorem Memory.wf_memWrite (h : m.wf) (hw : m.memWrite a v = some m') : m'.wf := by
  obtain ⟨-, rfl⟩ := Memory.memWrite_eq_some.mp hw
  exact Memory.wf_append h

@[simp] theorem State.append_len {s : State} {b : Byte} : (s.append b).len = s.len + 1 := Memory.len_append

@[simp] theorem State.clear_len {s : State} : s.clear.len = 0 := rfl

theorem State.len_eq {s : State} : s.len = s.buf.len := rfl

end Sys2Proof.Machine
end

