-- ==== Sys2Proof/Laws/Feed.lean ====
section
/-! SUPPORT. What one event can do, said once: the invariants in terms of the byte sequence, and the inversion of FEED,
which later proofs cite instead of unfolding the meanings. -/

namespace Sys2Proof.Machine

variable {s t : State} {b : Byte}

/-- The invariants below 2 bytes: nothing is expected. -/
theorem State.inv_header_iff (h : s.len < 2) : s.Inv ↔ s.buf.wf ∧ s.exp = none := by
  rw [State.inv_iff]
  constructor
  · rintro ⟨hw, -, h2, -⟩
    exact ⟨hw, h2.mpr h⟩
  · rintro ⟨hw, he⟩
    exact ⟨hw, by omega, ⟨fun _ => h, fun _ => he⟩, fun hh => by omega, fun hh => by omega⟩

/-- The invariants from 2 bytes on: the second byte `n` sets the expected length, which is above `len`. -/
theorem State.inv_body_iff (h : 2 ≤ s.len) :
    s.Inv ↔ s.buf.wf ∧ ∃ n, s.buf.bytes[1]? = some n ∧ s.exp = some (expectedLen n) ∧ s.len < n.toNat + 3 := by
  rw [State.inv_iff]
  constructor
  · rintro ⟨hw, -, h2, h3, h4⟩
    rw [Memory.byteAt_eq hw] at h3 h4
    have hl : 1 < s.buf.bytes.length := by rw [Memory.bytes_length]; exact h
    refine ⟨hw, s.buf.bytes[1], List.getElem?_eq_getElem hl, ?_, ?_⟩
    · simpa [List.getElem?_eq_getElem hl] using h3 h
    · exact h4 h _ (by simp [List.getElem?_eq_getElem hl])
  · rintro ⟨hw, n, hn, he, hlt⟩
    have := n.isLt
    refine ⟨hw, by omega, ?_, fun _ => ?_, fun _ k hk => ?_⟩
    · simp [he]; omega
    · rw [Memory.byteAt_eq hw, hn, he, Option.map_some]
    · rw [Memory.byteAt_eq hw, hn] at hk
      cases hk
      exact hlt

theorem State.wf_of_inv (h : s.Inv) : s.buf.wf := (State.inv_iff s |>.mp h).1

theorem State.exp_none_of_inv (h : s.Inv) (hl : s.len < 2) : s.exp = none := ((State.inv_header_iff hl).mp h).2

/-- The next state of a FEED that does not emit and does not complete the second byte. -/
def appended (s : State) (b : Byte) : State := { s with buf := s.buf.append b, out := none }

/-- The next state of the FEED of the second byte. -/
def learned (s : State) (b : Byte) : State :=
  { s with buf := s.buf.append b, exp := some (expectedLen b), out := none }

/-- The next state of a FEED that completes a frame. -/
def emitted (s : State) (b : Byte) : State :=
  { s with buf := [], exp := none, out := some (s.buf.bytes ++ [b]) }

@[simp] theorem appended_len : (appended s b).len = s.len + 1 := Memory.len_append
@[simp] theorem learned_len : (learned s b).len = s.len + 1 := Memory.len_append
@[simp] theorem emitted_len : (emitted s b).len = 0 := rfl

theorem exec_feed_first (hi : s.Inv) (h : s.len = 0) : exec (.feed b) s = .next (appended s b) := by
  simp [exec, execFeed, hi, State.phase, h, feedHeader]
  rfl

theorem exec_feed_second (hi : s.Inv) (h : s.len = 1) : exec (.feed b) s = .next (learned s b) := by
  have hb : (s.buf.append b).byteAt 1 = some b := by
    rw [Memory.byteAt_append (State.wf_of_inv hi), if_pos (by simpa [State.len] using h.symm)]
  simp [exec, execFeed, hi, State.phase, h, feedHeader, learned, State.quiet, State.append,
    State.learnLength, hb, State.len_eq, show s.buf.len = 1 from h]

theorem exec_feed_body {n : Len9} (hi : s.Inv) (h : 2 ≤ s.len) (he : s.exp = some n) :
    exec (.feed b) s = .next (if s.len + 1 = n.toNat then emitted s b else appended s b) := by
  have hlen : (s.quiet.append b).len = s.len + 1 := by simp
  have hemit : (s.quiet.append b).emit = emitted s b := by
    simp only [State.emit, State.clear, emitted, State.quiet, State.append, State.len, Memory.memRead_all,
      Memory.bytes_append]
  simp only [exec, execFeed, if_pos hi, State.phase, if_neg (show ¬ s.len < Config.hdrThreshold by simp; omega), he,
    feedBody, hlen, hemit]
  rfl

/-- All a FEED that answers a next state can have done. -/
theorem exec_feed_cases (h : exec (.feed b) s = .next t) :
    s.Inv ∧
      ((s.len = 0 ∧ t = appended s b) ∨
       (s.len = 1 ∧ t = learned s b) ∨
       (∃ n, 2 ≤ s.len ∧ s.exp = some n ∧ s.len + 1 ≠ n.toNat ∧ t = appended s b) ∨
       (∃ n, 2 ≤ s.len ∧ s.exp = some n ∧ s.len + 1 = n.toNat ∧ t = emitted s b)) := by
  have hi : s.Inv := by
    by_contra hn
    simp [exec, execFeed, hn] at h
  refine ⟨hi, ?_⟩
  obtain h0 | h1 | h2 : s.len = 0 ∨ s.len = 1 ∨ 2 ≤ s.len := by omega
  · rw [exec_feed_first hi h0] at h
    exact .inl ⟨h0, by cases h; rfl⟩
  · rw [exec_feed_second hi h1] at h
    exact .inr (.inl ⟨h1, by cases h; rfl⟩)
  · obtain ⟨-, n, -, he, -⟩ := (State.inv_body_iff h2).mp hi
    rw [exec_feed_body hi h2 he] at h
    split at h
    · exact .inr (.inr (.inr ⟨_, h2, he, ‹_›, by cases h; rfl⟩))
    · exact .inr (.inr (.inl ⟨_, h2, he, ‹_›, by cases h; rfl⟩))

@[simp] theorem exec_idle : exec .idle s = .next s.quiet := rfl

@[simp] theorem exec_reset : exec .reset s = .next s.quiet.clear := rfl

theorem step_nil (h : s.input = []) : step s = exec .idle s := by
  simp only [step, State.fetch, h]
  rfl

theorem step_cons {w : EventWord} {ws : List EventWord} (h : s.input = w :: ws) :
    step s = exec (decodeEvent w) (s.withInput ws) := by simp only [step, State.fetch, h]

end Sys2Proof.Machine
end

