-- ==== Sys2Proof/Laws/Run.lean ====
section
/-! SUPPORT. Runs: their equations, how they split at an append, and what events leave alone. -/

namespace Sys2Proof.Machine

variable {s t : State} {i : Instr} {is js : List Instr}

@[simp] theorem andThen_next {α β : Type} (a : α) (f : α → Host.Outcome β Fault Refusal) :
    andThen (.next a) f = f a := rfl

@[simp] theorem andThen_refused {α β : Type} (r : Refusal) (f : α → Host.Outcome β Fault Refusal) :
    andThen (.refused r) f = .refused r := rfl

/-- From a next result of `andThen`, the next result it went on from. -/
theorem andThen_eq_next {α β : Type} {x : Host.Outcome α Fault Refusal} {f : α → Host.Outcome β Fault Refusal}
    {b : β} (h : andThen x f = .next b) : ∃ a, x = .next a ∧ f a = .next b := by
  cases x with
  | next a => exact ⟨a, rfl, h⟩
  | fault r => exact nomatch r
  | refused r => cases h

@[simp] theorem run_nil : run [] s = .next (s, []) := rfl

theorem run_cons (h : exec i s = .next t) :
    run (i :: is) s = andThen (run is t) fun r => .next (r.1, t.out :: r.2) := by
  simp [run, h]

/-- The run of a first event and the rest. -/
theorem run_cons_next {u : State} {outs : List (Option Frame)} (h : run (i :: is) s = .next (u, outs)) :
    ∃ t os, exec i s = .next t ∧ run is t = .next (u, os) ∧ outs = t.out :: os := by
  obtain ⟨t, ht, h'⟩ := andThen_eq_next h
  obtain ⟨⟨u', os⟩, hr, h''⟩ := andThen_eq_next h'
  cases h''
  exact ⟨t, os, ht, hr, rfl⟩

/-- A run of two parts: the second starts where the first ended, and the traces are joined. -/
theorem run_append (is js : List Instr) (s : State) :
    run (is ++ js) s =
      andThen (run is s) fun r => andThen (run js r.1) fun q => .next (q.1, r.2 ++ q.2) := by
  induction is generalizing s with
  | nil =>
    rw [List.nil_append, run_nil, andThen_next]
    cases run js s <;> rfl
  | cons i is ih =>
    simp only [List.cons_append, run]
    cases exec i s with
    | next t =>
      simp only [andThen_next, ih]
      cases run is t with
      | next r =>
        simp only [andThen_next]
        cases run js r.1 <;> rfl
      | fault r => rfl
      | refused r => rfl
    | fault r => rfl
    | refused r => rfl

/-- An event leaves the words still to be presented alone. -/
theorem exec_input (h : exec i s = .next t) : t.input = s.input := by
  cases i with
  | feed b => obtain ⟨-, ⟨-, rfl⟩ | ⟨-, rfl⟩ | ⟨_, -, -, -, rfl⟩ | ⟨_, -, -, -, rfl⟩⟩ := exec_feed_cases h <;> rfl
  | idle => cases h; rfl
  | reset => cases h; rfl

/-- Every event answers a next state from a state that satisfies the invariants. -/
theorem exec_next_of_inv (h : s.Inv) (i : Instr) : ∃ t, exec i s = .next t := by
  cases i with
  | feed b =>
    obtain h0 | h1 | h2 : s.len = 0 ∨ s.len = 1 ∨ 2 ≤ s.len := by omega
    · exact ⟨_, exec_feed_first h h0⟩
    · exact ⟨_, exec_feed_second h h1⟩
    · obtain ⟨-, n, -, he, -⟩ := (State.inv_body_iff h2).mp h
      exact ⟨_, exec_feed_body h h2 he⟩
  | idle => exact ⟨_, rfl⟩
  | reset => exact ⟨_, rfl⟩

@[simp] theorem State.inv_withInput (ws : List EventWord) : (s.withInput ws).inv = s.inv :=
  State.inv_congr rfl rfl

/-- An event does the same whatever words are still to be presented. -/
theorem exec_withInput (i : Instr) (s : State) (ws : List EventWord) :
    exec i (s.withInput ws) = andThen (exec i s) fun t => .next (t.withInput ws) := by
  cases i with
  | idle => rfl
  | reset => rfl
  | feed b =>
    by_cases hi : s.Inv
    · have hi' : (s.withInput ws).Inv := (s.inv_withInput ws).trans hi
      obtain h0 | h1 | h2 : s.len = 0 ∨ s.len = 1 ∨ 2 ≤ s.len := by omega
      · rw [exec_feed_first hi h0, exec_feed_first hi' h0]
        rfl
      · rw [exec_feed_second hi h1, exec_feed_second hi' h1]
        rfl
      · obtain ⟨-, n, -, he, -⟩ := (State.inv_body_iff h2).mp hi
        rw [exec_feed_body hi h2 he, exec_feed_body (n := expectedLen n) hi' h2 he, State.withInput_len]
        split <;> rfl
    · simp [exec, execFeed, hi]

/-- One event that is no RESET loses and repeats no byte (R69, for one step). -/
theorem exec_conserves (hr : i ≠ .reset) (h : exec i s = .next t) :
    t.out.toList.flatten ++ t.buf.bytes = s.buf.bytes ++ fedBytes [i] := by
  cases i with
  | idle => cases h; simp [fedBytes]
  | reset => exact absurd rfl hr
  | feed b =>
    obtain ⟨-, ⟨-, rfl⟩ | ⟨-, rfl⟩ | ⟨_, -, -, -, rfl⟩ | ⟨_, -, -, -, rfl⟩⟩ := exec_feed_cases h <;>
      simp [fedBytes, appended, learned, emitted]

@[simp] theorem emissions_nil : emissions [] = [] := rfl

@[simp] theorem emissions_none (outs : List (Option Frame)) : emissions (none :: outs) = emissions outs := rfl

@[simp] theorem emissions_some (f : Frame) (outs : List (Option Frame)) :
    emissions (some f :: outs) = f :: emissions outs := rfl

@[simp] theorem emissions_append (os ps : List (Option Frame)) :
    emissions (os ++ ps) = emissions os ++ emissions ps := by simp [emissions]

@[simp] theorem fedBytes_append (is js : List Instr) : fedBytes (is ++ js) = fedBytes is ++ fedBytes js := by
  induction is with
  | nil => rfl
  | cons i is ih => cases i <;> simp [fedBytes, ih]

@[simp] theorem fedBytes_feeds (bs : List Byte) : fedBytes (bs.map .feed) = bs := by
  induction bs with
  | nil => rfl
  | cons b bs ih => simp [fedBytes, ih]

/-- A sequence with no RESET is all since the last RESET. -/
theorem sinceReset_of_not_mem (h : .reset ∉ is) : sinceReset is = is := by
  have : is.reverse.takeWhile (fun i => i != .reset) = is.reverse :=
    List.takeWhile_eq_self_iff.mpr fun i hi => by
      have : i ≠ .reset := fun e => h (e ▸ List.mem_reverse.mp hi)
      simpa using this
  rw [sinceReset, this, List.reverse_reverse]

theorem takeWhile_reset (l m : List Instr) :
    (l ++ .reset :: m).takeWhile (fun i => i != .reset) = l.takeWhile (fun i => i != .reset) := by
  induction l with
  | nil => rfl
  | cons i l ih => simp only [List.cons_append, List.takeWhile_cons, ih]

/-- What stands before a RESET does not count. -/
theorem sinceReset_append_reset (is js : List Instr) : sinceReset (is ++ .reset :: js) = sinceReset js := by
  simp only [sinceReset, List.reverse_append, List.reverse_cons, List.append_assoc, List.singleton_append,
    takeWhile_reset]

end Sys2Proof.Machine
end

