-- ==== Sys2Proof/Laws/InfiniteRun.lean ====
section
/-! SUPPORT. Infinite runs: a presented word is the event of its step, and one more step is one more event. -/

namespace Sys2Proof.Machine

variable {ws : Nat → EventWord} {s : State} {k : Nat}

/-- A step that is presented `w` runs the event of `w`, and leaves the words lined up behind it in place. -/
theorem step_present (s : State) (w : EventWord) : step (s.present w) = exec (decodeEvent w) s :=
  step_cons rfl

@[simp] theorem prefixRun_zero : prefixRun ws s 0 = .next (s, []) := rfl

/-- One more step of an infinite run. -/
theorem prefixRun_succ :
    prefixRun ws s (k + 1) =
      andThen (prefixRun ws s k) fun r =>
        andThen (exec (decodeEvent (ws k)) r.1) fun t => .next (t, r.2 ++ [t.out]) := by
  simp only [prefixRun, step_present]

@[simp] theorem eventsBefore_zero : eventsBefore ws 0 = [] := rfl

@[simp] theorem eventsBefore_succ : eventsBefore ws (k + 1) = eventsBefore ws k ++ [decodeEvent (ws k)] := by
  simp [eventsBefore, List.range_succ]

/-- A prefix of an infinite run, and its step after it: the outputs and the next state. -/
theorem prefixRun_succ_next {u : State} {outs : List (Option Frame)}
    (h : prefixRun ws s (k + 1) = .next (u, outs)) :
    ∃ t os, prefixRun ws s k = .next (t, os) ∧ exec (decodeEvent (ws k)) t = .next u ∧
      outputAt ws s k = .next u.out ∧ outs = os ++ [u.out] := by
  have ho : outputAt ws s k = .next u.out := by simp only [outputAt, h, andThen_next]
  rw [prefixRun_succ] at h
  obtain ⟨⟨t, os⟩, ht, h'⟩ := andThen_eq_next h
  obtain ⟨v, hv, h''⟩ := andThen_eq_next h'
  cases h''
  exact ⟨t, os, ht, hv, ho, rfl⟩

end Sys2Proof.Machine
end

