-- ==== Sys2Proof/Laws/PerInstr.lean ====
section
/-! SUPPORT. One lemma for each event: its canonical word is of its row of the opcode table and of no other row. -/

namespace Sys2Proof.Laws

/-- The canonical word of an event matches its own row, and a row it matches is its own (R48 to R51). -/
def TableRow.Statement (i : Instr) : Prop :=
  i.wf = true ∧ i.row.admits (encode i) = true ∧ ∀ j : Instr, j.row.admits (encode i) = true → j.row = i.row

theorem TableRow.feed (b : Byte) : TableRow.Statement (.feed b) := by
  refine ⟨rfl, ?_, fun j hj => ?_⟩
  · revert b; decide
  · cases j with
    | feed c => rfl
    | idle => revert b; decide
    | reset => revert b; decide

theorem TableRow.idle : TableRow.Statement .idle := by
  refine ⟨rfl, rfl, fun j hj => ?_⟩
  cases j with
  | feed c => exact absurd hj (by simp [Instr.row, OpcodeRow.admits, encode])
  | idle => rfl
  | reset => exact absurd hj (by decide)

theorem TableRow.reset : TableRow.Statement .reset := by
  refine ⟨rfl, rfl, fun j hj => ?_⟩
  cases j with
  | feed c => exact absurd hj (by simp [Instr.row, OpcodeRow.admits, encode])
  | idle => exact absurd hj (by decide)
  | reset => rfl

end Sys2Proof.Laws
end

