-- ==== Sys2Proof/Laws/Trace.lean ====
section
/-! SUPPORT. The laws of the trace notation: a byte reads back from its digits, and a text of tokens splits into them. -/

namespace Sys2Proof.Machine

/-- The two digits of a byte read back, and hold no space and no `;`. -/
theorem printByte_reads_back (b : Byte) :
    ' ' ∉ printByte b ∧ ';' ∉ printByte b ∧ parseByte (printByte b) = some b := by
  revert b
  decide

theorem parseBytes_map_printByte (bs : List Byte) : parseBytes (bs.map printByte) = some bs := by
  induction bs with
  | nil => rfl
  | cons b bs ih => simp [parseBytes, (printByte_reads_back b).2.2, ih]

theorem splitSpaces_ne_nil (cs : List Char) : splitSpaces cs ≠ [] := by
  cases cs with
  | nil => simp [splitSpaces]
  | cons c cs =>
    simp only [splitSpaces]
    split
    · simp
    · split <;> simp

/-- A token splits off at the space after it. -/
theorem splitSpaces_token_space {t : List Char} (h : ' ' ∉ t) (rest : List Char) :
    splitSpaces (t ++ ' ' :: rest) = t :: splitSpaces rest := by
  induction t with
  | nil =>
    simp only [List.nil_append, splitSpaces]
    cases hr : splitSpaces rest with
    | nil => exact absurd hr (splitSpaces_ne_nil rest)
    | cons a b => simp
  | cons c t ih =>
    simp only [List.mem_cons, not_or] at h
    simp [splitSpaces, ih h.2, Ne.symm h.1]

/-- A token by itself is its only piece. -/
theorem splitSpaces_token {t : List Char} (h : ' ' ∉ t) : splitSpaces t = [t] := by
  induction t with
  | nil => rfl
  | cons c t ih =>
    simp only [List.mem_cons, not_or] at h
    simp [splitSpaces, ih h.2, Ne.symm h.1]

end Sys2Proof.Machine
end

