-- ==== Sys2Proof/Tests/Slice0.lean ====
section
/-! SUPPORT. The model's own tests: expected results are those of spec/95_test_vectors.md and of the worked examples in
the rules, named at each test. After them a witness for the hypotheses of each statement that has some. -/

namespace Sys2Proof.Tests

open Sys2Proof Sys2Proof.Machine

/-- A state with the bytes `bs` in the buffer. -/
def held (bs : List Byte) (exp : Option Len9) : State := { State.reset with buf := Memory.ofBytes bs, exp := exp }

/-- The next state of an outcome. -/
def nextOf {α : Type} : Host.Outcome α Fault Refusal → Option α
  | .next a => some a
  | .fault _ => none
  | .refused _ => none

/-- The buffer, the expected length and the output of an outcome. -/
def shown (x : Host.Outcome State Fault Refusal) : Option (List Byte × Option Len9 × Option Frame) :=
  (nextOf x).map fun t => (t.buf.bytes, t.exp, t.out)

/-! ### Well-formedness, each check with a term it refuses -/

theorem test_frame_wf : Frame.wf [0x0A, 0x02, 0x00, 0xFF, 0xEE] := by decide
theorem test_frame_wf_refuses_short : ¬ Frame.wf [0x05, 0x00] := by decide
theorem test_frame_wf_refuses_long : ¬ Frame.wf [0x05, 0x00, 0x00, 0x00] := by decide
theorem test_payload_wf_limit : payloadWf (List.replicate 255 0x33) := by decide +kernel
theorem test_payload_wf_refuses_256 : ¬ payloadWf (List.replicate 256 0x33) := by decide +kernel
/-- Every event is well formed (R44, R51): there is no ill-formed one to refuse. -/
theorem test_instr_wf_all : ∀ b : Byte, (Instr.feed b).wf ∧ Instr.idle.wf ∧ Instr.reset.wf := by decide
theorem test_memory_wf_refuses_gap : ¬ Memory.wf [(0, 0x0A), (2, 0x02)] := by decide
theorem test_memory_wf_refuses_order : ¬ Memory.wf [(1, 0x0A), (0, 0x02)] := by decide
/-- U1's two examples violate R21. -/
theorem test_inv_refuses_u1_long : ¬ (held [0x0A, 0x00, 0x00, 0x00, 0x00] (some 3)).Inv := by decide
theorem test_inv_refuses_u1_unknown : ¬ (held [0x0A, 0x05, 0x00, 0x00] none).Inv := by decide
theorem test_inv_refuses_exp_below_two : ¬ (held [0x0A] (some 5)).Inv := by decide
theorem test_inv_refuses_wrong_exp : ¬ (held [0x0A, 0x02] (some 6)).Inv := by decide

/-! ### Decoding: words written out from R48 to R50 (T14) -/

theorem test_decode_feed : decodeEvent 0b0100001010#10 = .feed 0x0A := by decide
theorem test_decode_idle_ignored_bits : decodeEvent 0b0011101110#10 = .idle := by decide
theorem test_decode_reset_wins : decodeEvent 0b1110101011#10 = .reset := by decide
/-- The examples of R48 to R50: FEED 0x0A is 0x10A, the canonical words 0x000 and 0x200. -/
theorem test_encode_examples :
    encode (.feed 0x0A) = 0x10A ∧ encode .idle = 0x000 ∧ encode .reset = 0x200 := by decide
theorem test_decode_table_word :
    decodeTableWord 16 0x10A = some (.feed 0x0A) ∧ decodeTableWord 16 0x400 = none := by decide
theorem test_decode_rejects_by_name :
    (match decodeBits 0x400 with | .error e => some e | .ok _ => none) = some .widerThanEventWord := by decide

/-! ### One step -/

/-- R60: state `([0A], none)`, FEED 0x02, gives `([0A, 02], some 5)`. -/
theorem test_feed_header :
    shown (exec (.feed 0x02) (held [0x0A] none)) = some ([0x0A, 0x02], some 5, none) := by decide
/-- R61: state `([0A, 02, 00, FF], some 5)`, FEED 0xEE, emits and clears. -/
theorem test_feed_body_emits :
    shown (exec (.feed 0xEE) (held [0x0A, 0x02, 0x00, 0xFF] (some 5))) =
      some ([], none, some [0x0A, 0x02, 0x00, 0xFF, 0xEE]) := by decide
/-- R59: state `([0A, 02], some 5)`, IDLE, is unchanged. -/
theorem test_idle_keeps :
    shown (exec .idle (held [0x0A, 0x02] (some 5))) = some ([0x0A, 0x02], some 5, none) := by decide
/-- R62: state `([0A, 02, 00], some 5)`, RESET, gives the reset state. -/
theorem test_reset_clears :
    shown (exec .reset (held [0x0A, 0x02, 0x00] (some 5))) = some ([], none, none) := by decide
/-- T7: the word 0x3AB is a RESET and its byte is not accumulated. -/
theorem test_step_reset_word :
    shown (step ((held [0x0A, 0x02, 0x00] (some 5)).withFetchWord 16 0x3AB)) = some ([], none, none) := by decide
/-- T13: the length byte 0x80 gives 131 and 0xFF gives 258. -/
theorem test_length_byte_unsigned : (expectedLen 0x80).toNat = 131 ∧ (expectedLen 0xFF).toNat = 258 := by decide

/-! ### The Codec, ports and trace notation -/

/-- K2. -/
theorem test_encode_k2 :
    Codec.encode (Codec.RequestFrame.build 0xFF 0x00 [0xAA] (by decide)) = [0xFF, 0x00, 0x01, 0x00, 0xAA] := by decide
/-- K6. -/
theorem test_decode_k6 :
    Codec.decode [0x00, 0x01, 0xFF, 0x80] = .ok (Codec.ResponseFrame.build 0x00 0xFF [0x80] (by decide)) := by decide
/-- K10 and K13. -/
theorem test_decode_fails :
    Codec.decode [0x05, 0x00] = .error .malformedFrame ∧
    Codec.decode [0x0A, 0x02, 0x00, 0xFF, 0xEE, 0x05] = .error .malformedFrame := by decide
/-- R54's line `FEED 0xEE  => 0A 02 00 FF EE`. -/
theorem test_print_r54 :
    (TraceLine.event (.feed 0xEE) (some [0x0A, 0x02, 0x00, 0xFF, 0xEE])).print =
      ['F', 'E', 'E', 'D', ' ', '0', 'x', 'E', 'E', ' ', ' ', '=', '>', ' ', '0', 'A', ' ', '0', '2', ' ', '0', '0',
        ' ', 'F', 'F', ' ', 'E', 'E'] := by decide
/-- R54's line `FEED 0x0A      ; one`. -/
theorem test_parse_r54_comment :
    parseLine ['F', 'E', 'E', 'D', ' ', '0', 'x', '0', 'A', ' ', ' ', ' ', ';', ' ', 'o', 'n', 'e'] =
      some (.event (.feed 0x0A) none) := by decide
/-- What follows `;` is comment to the end of the line, an output mark too (DESIGN CHOICE, log 12): an output after the
comment, as the programs of 95_test_vectors.md write it, is not read. -/
theorem test_parse_output_in_comment :
    parseLine ['F', 'E', 'E', 'D', ' ', '0', 'x', 'E', 'E', ' ', ';', ' ', '=', '>', ' ', '0', 'A'] =
      some (.event (.feed 0xEE) none) := by decide
/-- K16, first emission: a request is framed by its op_code (R87). -/
theorem test_request_misframed :
    (nextOf (feedN [0x01, 0x01, 0x05, 0x00] State.reset)).map (fun r => r.2) = some [[0x01, 0x01, 0x05, 0x00]] := by
  decide

/-! ### Witnesses for the hypotheses of the statements -/

/-- A state before the last byte of the document's response (T2). -/
def nearEnd : State := held [0x0A, 0x02, 0x00, 0xFF] (some 5)

/-- The state of T1 before its last byte: the smallest expected length. -/
def shortest : State := held [0x05, 0x00] (some 3)

/-- A state with 257 bytes of the longest frame (T11). -/
def longest : State := held (0x11 :: 0xFF :: List.replicate 255 0x00) (some 258)

/-- The state of T2 in the middle of its frame. -/
def middle : State := held [0x0A, 0x02] (some 5)

/-- A state with one byte. -/
def single : State := held [0x0A] none

/-- FeedInOneFormulation, InstancesShareNothing and every statement whose only hypothesis is Inv. -/
theorem witness_inv : nearEnd.Inv ∧ shortest.Inv ∧ longest.Inv ∧ middle.Inv ∧ single.Inv ∧ State.reset.Inv := by
  decide +kernel

/-- DecodeAndEncodeAgree. -/
theorem witness_decode_encode : (Instr.feed 0xFF).wf = true ∧ Instr.idle.wf = true ∧ Instr.reset.wf = true := by decide

/-- EveryStepKeepsInvariants, EmittedFramesAreWellFormed, EmittedFramesDecode, PortsCarryTheOutput with an output. -/
theorem witness_step_emits :
    nearEnd.Inv ∧ ∃ t, step (nearEnd.withFetchWord 16 0x1EE) = .next t ∧ (nearEnd.withFetchWord 16 0x1EE).Inv ∧
      t.out = some [0x0A, 0x02, 0x00, 0xFF, 0xEE] := ⟨by decide, _, rfl, by decide, by decide⟩

/-- EveryStepKeepsInvariants and PortsCarryTheOutput without an output. -/
theorem witness_step_silent : middle.Inv ∧ ∃ t, step middle = .next t ∧ t.out = none := ⟨by decide, _, rfl, rfl⟩

/-- PortsCarryTheOutput: a lane that carries a byte and one the spec leaves unspecified. -/
theorem witness_port_lanes :
    (4 < 258 ∧ 4 < [0x0A, 0x02, 0x00, 0xFF, (0xEE : Byte)].length) ∧
    (257 < 258 ∧ [0x0A, 0x02, 0x00, 0xFF, (0xEE : Byte)].length ≤ 257) := by decide

/-- NoStepEverStops: both ways in. -/
theorem witness_safe_premise : Reachable (State.reset.withInput []) ∧ longest.Inv := ⟨.reset [], by decide +kernel⟩

/-- ReachableStatesExactly: each of its three cases at a boundary. -/
theorem witness_reachable_cases :
    (2 ≤ [0x05, (0x00 : Byte)].length ∧ [0x05, (0x00 : Byte)].length < (0x00 : Byte).toNat + 3) ∧
    (longest.buf.bytes[1]? = some 0xFF ∧ longest.len < (0xFF : Byte).toNat + 3) := by decide +kernel

/-- PhaseFollowsLength. -/
theorem witness_phase : shortest.Inv ∧ shortest.phase = .awaitingBody ∧ single.phase = .awaitingHeader := by decide

/-- LengthComparisonsAgree, FeedInAwaitingBody, FrameCompletesWithItsLastByte: at the smallest and the largest expected
length, on equality, and below it. -/
theorem witness_body :
    (shortest.Inv ∧ 2 ≤ shortest.len ∧ shortest.exp = some 3 ∧ shortest.len + 1 = (3#9).toNat) ∧
    (longest.Inv ∧ 2 ≤ longest.len ∧ longest.exp = some 258 ∧ longest.len + 1 = (258#9).toNat) ∧
    (middle.Inv ∧ 2 ≤ middle.len ∧ middle.exp = some 5 ∧ middle.len + 1 < (5#9).toNat) := by decide +kernel

/-- FrameCompletesWithItsLastByte: as many bytes as the frame waits for, and fewer. -/
theorem witness_frame_completes :
    middle.len + [0x00, 0xFF, (0xEE : Byte)].length = (5#9).toNat ∧
    middle.len + [0x00, (0xFF : Byte)].length < (5#9).toNat := by decide

/-- FeedInAwaitingHeader: no byte and one byte. LengthByteGivesExpectedLength: one byte. -/
theorem witness_header :
    (State.reset.Inv ∧ State.reset.len = 0 ∧ State.reset.len < 2) ∧
    (single.Inv ∧ single.len = 1 ∧ single.len < 2) := by decide

/-- FeedRefusedOnlyOutsideInvariants, both sides. -/
theorem witness_refusal : nearEnd.Inv ∧ ¬ (held [0x0A, 0x00, 0x00, 0x00, 0x00] (some 3)).Inv := by decide

/-- TransitionTable, BufferOnlyGrowsOrClears, FeedFrame, ClearIsBothTogether and OutputExactlyAtLastByte: FEED in each of
its cases. -/
theorem witness_feed_cases :
    (∃ t, exec (.feed 0x0A) State.reset = .next t ∧ State.reset.len = 0 ∧ t.out = none) ∧
    (∃ t, exec (.feed 0xFF) single = .next t ∧ single.len = 1 ∧ t.out = none) ∧
    (∃ t, exec (.feed 0x00) middle = .next t ∧ 2 ≤ middle.len ∧ t.out = none) ∧
    (∃ t, exec (.feed 0x00) shortest = .next t ∧ 2 ≤ shortest.len ∧ t.out = some [0x05, 0x00, 0x00] ∧ t.buf = [] ∧
      shortest.buf ≠ [] ∧ shortest.exp ≠ none ∧ t.exp = none) :=
  ⟨⟨_, rfl, by decide⟩, ⟨_, rfl, by decide⟩, ⟨_, rfl, by decide⟩, ⟨_, rfl, by decide⟩⟩

/-- TransitionTable at the largest length, 257, where FEED completes the longest frame. -/
theorem witness_feed_longest :
    longest.Inv ∧ longest.len = 257 ∧ ∃ t, exec (.feed 0x00) longest = .next t :=
  have hi : longest.Inv := by decide +kernel
  ⟨hi, by decide +kernel, exec_next_of_inv hi _⟩

/-- TransitionTable, IdleAndResetFrame, ClearIsBothTogether: IDLE and RESET from a state in the middle of a frame. -/
theorem witness_idle_reset :
    middle.Inv ∧ (∃ t, exec .idle middle = .next t) ∧
    (∃ t, exec .reset middle = .next t ∧ middle.buf ≠ [] ∧ t.buf = [] ∧ middle.exp ≠ none ∧ t.exp = none) :=
  ⟨by decide, ⟨_, rfl⟩, ⟨_, rfl, by decide⟩⟩

/-- ExpectedLengthHasThreeWriters: a change by each writer, and a known length afterwards. -/
theorem witness_exp_writers :
    (∃ t, exec (.feed 0xFF) single = .next t ∧ t.exp ≠ single.exp ∧ t.exp = some 258) ∧
    (∃ t, exec (.feed 0x00) shortest = .next t ∧ t.exp ≠ shortest.exp) ∧
    (∃ t, exec .reset middle = .next t ∧ t.exp ≠ middle.exp) :=
  ⟨⟨_, rfl, by decide⟩, ⟨_, rfl, by decide⟩, ⟨_, rfl, by decide⟩⟩

/-- MemReadGivesBytesInOrder and MemWriteAppendsAtLength: the last byte, the whole, and an append at `len`. -/
theorem witness_memory :
    nearEnd.buf.wf ∧ nearEnd.buf.memRead 3 1 = some [0xFF] ∧
    nearEnd.buf.memRead 0 4 = some [0x0A, 0x02, 0x00, 0xFF] ∧ nearEnd.buf.memRead 4 0 = some [] ∧
    (∃ m', nearEnd.buf.memWrite 4 0xEE = some m') ∧ 3 < nearEnd.buf.len :=
  ⟨by decide, by decide, by decide, by decide, ⟨_, rfl⟩, by decide⟩

/-- StepRunsDecodedEvent: a word left and none left. -/
theorem witness_input :
    (middle.withInput [0x100, 0x000]).input = 0x100 :: [0x000] ∧ middle.input = [] := by decide

/-- OnlyBufferAndExpectedLengthMatter: two states that differ in the rest, and a run from one. -/
theorem witness_same_buffer :
    middle.buf = (middle.withInput [0x1FF]).buf ∧ middle.exp = (middle.withInput [0x1FF]).exp ∧
    middle ≠ middle.withInput [0x1FF] ∧
    ∃ t outs, run [.feed 0x00, .idle] middle = .next (t, outs) := ⟨by decide, by decide, by decide, _, _, rfl⟩

/-- ResetForgetsEverything: two states with the same input, and an emission. -/
theorem witness_reset_forgets :
    middle.input = nearEnd.input ∧ middle ≠ nearEnd ∧
    ∃ t, exec (.feed 0xEE) nearEnd = .next t ∧ t.out = some [0x0A, 0x02, 0x00, 0xFF, 0xEE] :=
  ⟨by decide, by decide, _, rfl, by decide⟩

/-- BytesAreConserved and ChunkCompletesBoundedFrames, with and without a RESET among the events. -/
theorem witness_conserved :
    middle.Inv ∧ .reset ∈ [Instr.feed 0x00, .reset, .feed 0x05] ∧ .reset ∉ [Instr.feed 0x00, .idle] := by decide

/-- PausesAndChunksDoNotMatter. -/
theorem witness_pauses :
    middle.Inv ∧ [Instr.idle, .feed 0x00, .idle].filter (· ≠ .idle) = [Instr.feed 0x00].filter (· ≠ .idle) := by
  decide

/-- BackToBackFramesEmittedInOrder and WellFormedFrameArrivesAndDecodes (T3, T4). -/
theorem witness_frames :
    (∀ w ∈ [[0x0A, 0x02, 0x00, 0xFF, 0xEE], ([0x05, 0x00, 0x00] : Frame)], Frame.wf w) ∧
    [[0x0A], [], [0x02, 0x00, 0xFF], ([0xEE] : List Byte)].flatten = [0x0A, 0x02, 0x00, 0xFF, 0xEE] := by decide

/-- PauseKeepsPartialFrame. -/
theorem witness_pause :
    middle.Inv ∧ (∃ t outs, run [.feed 0x00] middle = .next (t, outs)) ∧ .reset ∉ [Instr.feed 0x00] :=
  ⟨by decide, ⟨_, _, rfl⟩, by decide⟩

/-- EmissionsAreThreeStepsApart: two zero-payload frames back to back are exactly 3 steps apart. -/
theorem witness_spacing :
    State.reset.Inv ∧ 2 < 5 ∧
    ∃ t outs, run [.feed 0x05, .feed 0x00, .feed 0x00, .feed 0x06, .feed 0x00, .feed 0x01] State.reset =
        .next (t, outs) ∧ outs[2]? = some (some [0x05, 0x00, 0x00]) ∧ outs[5]? = some (some [0x06, 0x00, 0x01]) :=
  ⟨by decide, by decide, _, _, rfl, by decide, by decide⟩

/-- An endless stream of FEED 0x00: every third step emits `00 00 00`. -/
def zeros : Nat → EventWord := fun _ => 0x100

/-- InfiniteRunExtendsItsFiniteRuns: a prefix and the output of one of its steps. -/
theorem witness_infinite_prefix :
    State.reset.Inv ∧ ∃ t outs, prefixRun zeros State.reset 3 = .next (t, outs) ∧
      outs[2]? = some (some [0x00, 0x00, 0x00]) := ⟨by decide, _, _, rfl, by decide⟩

/-- InfiniteRunEmitsInOrder: two frames of an infinite run, the second with a number before it. -/
theorem witness_infinite_emission :
    State.reset.Inv ∧ IsEmission zeros State.reset 0 [0x00, 0x00, 0x00] ∧
    IsEmission zeros State.reset 1 [0x00, 0x00, 0x00] ∧ 0 < 1 :=
  ⟨by decide, ⟨2, _, rfl, rfl, by decide⟩, ⟨5, _, rfl, rfl, by decide⟩, by decide⟩

/-- EndlessBytesEmitEndlessFrames. -/
theorem witness_endless_bytes : State.reset.Inv ∧ ∀ k, ∃ b, decodeEvent (zeros k) = .feed b :=
  ⟨by decide, fun _ => ⟨0x00, (by decide : decodeEvent 0x100 = .feed 0x00)⟩⟩

/-- InstancesShareNothing. -/
theorem witness_instances : (∀ s ∈ [middle, single], s.Inv) ∧ [middle, single][1]? = some single := by decide

/-- DecodeReadsTheFields and DecodeFailsOnItsTwoCauses, at the shortest frame and on each cause. -/
theorem witness_decode :
    (([0x05, 0x00, 0x00] : List Byte)[1]? = some 0x00 ∧ ([0x05, 0x00, 0x00] : List Byte).length = 0 + 3) ∧
    ([0x05, 0x00] : List Byte).length < 3 ∧
    (([0x05, 0x00, 0x00, 0x00] : List Byte)[1]? = some 0x00 ∧ ([0x05, 0x00, 0x00, 0x00] : List Byte).length ≠ 3) := by
  decide

/-- DecodeIsExactAndInjective and CrcIsPassedThrough: a buffer that decodes, one that does not, and a payload of the
largest size. -/
theorem witness_codec :
    Codec.decode [0x05, 0x00, 0x00] = .ok (Codec.ResponseFrame.build 0x05 0x00 [] (by decide)) ∧
    Codec.decode [0x05, 0x00] = .error .malformedFrame ∧ payloadWf (List.replicate 255 0x00) :=
  ⟨by decide, by decide, by decide +kernel⟩

/-- RequestIsFramedByItsOpCode: a request as long as its op_code frames, and one shorter. -/
theorem witness_request :
    (let r := Codec.RequestFrame.build 0x01 0x01 [] (by decide); r.opCode.toNat + 3 ≤ (Codec.encode r).length) ∧
    (let r := Codec.RequestFrame.build 0x01 0xFF [0x00] (by decide); (Codec.encode r).length < r.opCode.toNat + 3) := by
  decide

end Sys2Proof.Tests
end

section
/-! PROOFS. The phase and the buffer between steps (spec 10_state.md R13, R16): the phase in terms of `len`, the
invariants of every next state, and what each event does to the buffer. -/

namespace Sys2Proof.Machine

variable {s t : State} {b : Byte}

/-! ### The phase -/

theorem State.phase_header_iff : s.phase = .awaitingHeader ↔ s.len < 2 := by simp [State.phase]

theorem State.phase_body_iff : s.phase = .awaitingBody ↔ 2 ≤ s.len := by simp [State.phase, Nat.succ_le_iff]

/-- Settles O12: `len` decides the phase, and from 2 bytes on the invariants give the expected length. -/
theorem phaseFollowsLength : Obligations.PhaseFollowsLength := by
  refine fun s => ⟨State.phase_header_iff, State.phase_body_iff, fun hi hp => ?_⟩
  obtain ⟨-, n, -, he, -⟩ := (State.inv_body_iff (State.phase_body_iff.mp hp)).mp hi
  exact ⟨expectedLen n, he⟩

/-! ### The invariants of every next state -/

/-- After the first byte nothing is expected yet. -/
theorem appended_inv_first (hi : s.Inv) (h : s.len = 0) : (appended s b).Inv := by
  have hl : (appended s b).len < 2 := by rw [appended_len]; omega
  have he : s.exp = none := State.exp_none_of_inv hi (by omega)
  exact (State.inv_header_iff hl).mpr ⟨Memory.wf_append (State.wf_of_inv hi), he⟩

/-- The second byte `b` is the length byte, and 2 is below every `b + 3`. -/
theorem learned_inv (hi : s.Inv) (h : s.len = 1) : (learned s b).Inv := by
  have hl : (learned s b).len = 2 := by rw [learned_len, h]
  refine (State.inv_body_iff hl.ge).mpr ⟨Memory.wf_append (State.wf_of_inv hi), b, ?_, rfl, by omega⟩
  have hb : s.buf.bytes.length = 1 := Memory.bytes_length.trans h
  simp [learned, hb]

/-- In the body an append keeps the length byte, and a length that is not yet the expected one stays below it. -/
theorem appended_inv_body {n : Len9} (hi : s.Inv) (h : 2 ≤ s.len) (he : s.exp = some n) (hne : s.len + 1 ≠ n.toNat) :
    (appended s b).Inv := by
  have hl : 2 ≤ (appended s b).len := by rw [appended_len]; omega
  obtain ⟨hw, k, hk, hek, hlt⟩ := (State.inv_body_iff h).mp hi
  obtain rfl : n = expectedLen k := Option.some.inj (he.symm.trans hek)
  rw [expectedLen_toNat] at hne
  refine (State.inv_body_iff hl).mpr ⟨Memory.wf_append hw, k, ?_, he, by rw [appended_len]; omega⟩
  have hb : 1 < s.buf.bytes.length := by rw [Memory.bytes_length]; exact h
  simpa [appended, List.getElem?_append_left hb] using hk

/-- An empty buffer with no expected length satisfies the invariants. -/
theorem State.inv_of_cleared (hb : s.buf = []) (he : s.exp = none) : s.Inv :=
  (State.inv_header_iff (by simp [State.len, hb])).mpr ⟨hb ▸ Memory.wf_nil, he⟩

/-- Every event that answers a next state keeps the invariants (R21). -/
theorem exec_keeps_inv {i : Instr} (hi : s.Inv) (h : exec i s = .next t) : t.Inv := by
  cases i with
  | feed b =>
    obtain ⟨-, ⟨h0, rfl⟩ | ⟨h1, rfl⟩ | ⟨n, h2, he, hne, rfl⟩ | ⟨n, -, -, -, rfl⟩⟩ := exec_feed_cases h
    · exact appended_inv_first hi h0
    · exact learned_inv hi h1
    · exact appended_inv_body hi h2 he hne
    · exact State.inv_of_cleared rfl rfl
  | idle => cases h; exact hi
  | reset => cases h; exact State.inv_of_cleared rfl rfl

/-! ### The buffer -/

/-- I1 of R21. -/
theorem State.len_le_of_inv (hi : s.Inv) : s.buf.len ≤ 257 := ((State.inv_iff s).mp hi).2.1

/-- A FEED appends its byte at offset `len` without an output, or has an output and leaves the buffer empty. -/
theorem exec_feed_buf (h : exec (.feed b) s = .next t) :
    (t.out = none ∧ t.buf = s.buf ++ [(s.len, b)]) ∨ (t.out ≠ none ∧ t.buf = []) := by
  obtain ⟨-, ⟨-, rfl⟩ | ⟨-, rfl⟩ | ⟨_, -, -, -, rfl⟩ | ⟨_, -, -, -, rfl⟩⟩ := exec_feed_cases h
  · exact .inl ⟨rfl, rfl⟩
  · exact .inl ⟨rfl, rfl⟩
  · exact .inl ⟨rfl, rfl⟩
  · exact .inr ⟨Option.some_ne_none _, rfl⟩

/-- Settles O23: the effect of each event on the buffer, and the bound of I1 before and after it. -/
theorem bufferOnlyGrowsOrClears : Obligations.BufferOnlyGrowsOrClears := by
  refine ⟨fun i s t hi h => ⟨?_, State.len_le_of_inv hi, State.len_le_of_inv (exec_keeps_inv hi h)⟩, rfl⟩
  cases i with
  | feed b => exact exec_feed_buf h
  | idle => cases h; rfl
  | reset => cases h; rfl

end Sys2Proof.Machine
end

section
/-! PROOFS. The buffer as a memory (spec 20_memory.md R30, R31): what MemWrite answers, and that no step clears one of
`buf` and `exp` without the other. -/

namespace Sys2Proof.Machine

variable {m : Memory} {v : Byte} {s t : State} {b : Byte} {i : Instr}

/-! ### MemWrite -/

theorem Memory.memWrite_isDefined_iff {addr : Nat} : (∃ m', m.memWrite addr v = some m') ↔ addr = m.len := by
  simp [Memory.memWrite_eq_some]

/-- The appended byte is read back at offset `len`. -/
theorem Memory.byteAt_append_len (h : m.wf) : (m.append v).byteAt m.len = some v := by
  rw [Memory.byteAt_append h, if_pos rfl]

/-- An append overwrites no byte. -/
theorem Memory.byteAt_append_of_lt {a : Nat} (h : m.wf) (ha : a < m.len) : (m.append v).byteAt a = m.byteAt a := by
  rw [Memory.byteAt_append h, if_neg (Nat.ne_of_lt ha)]

/-- Settles O28: MemWrite is the append at offset `len`, and the laws of the append give what it leaves. -/
theorem memWriteAppendsAtLength : Obligations.MemWriteAppendsAtLength := by
  refine fun m addr v hw => ⟨Memory.memWrite_isDefined_iff, fun m' h => ?_⟩
  obtain ⟨rfl, rfl⟩ := Memory.memWrite_eq_some.mp h
  exact ⟨Memory.bytes_append, Memory.byteAt_append_len hw, Memory.len_append, Memory.wf_append hw,
    fun _ ha => Memory.byteAt_append_of_lt hw ha⟩

/-! ### Clear -/

/-- A FEED leaves `buf` and `exp` both empty, or it loses neither: a byte more, and an expected length that was known
stays as it was. -/
theorem exec_feed_clears_or_extends (h : exec (.feed b) s = .next t) :
    (t.buf = [] ∧ t.exp = none) ∨ (t.buf = s.buf.append b ∧ (s.exp ≠ none → t.exp = s.exp)) := by
  obtain ⟨hi, ⟨-, rfl⟩ | ⟨h1, rfl⟩ | ⟨_, -, -, -, rfl⟩ | ⟨_, -, -, -, rfl⟩⟩ := exec_feed_cases h
  · exact .inr ⟨rfl, fun _ => rfl⟩
  · have hn : s.exp = none := State.exp_none_of_inv hi (by omega)
    exact .inr ⟨rfl, fun hne => absurd hn hne⟩
  · exact .inr ⟨rfl, fun _ => rfl⟩
  · exact .inl ⟨rfl, rfl⟩

/-- Every event leaves `buf` and `exp` both empty, or it drops no byte and no known expected length. -/
theorem exec_clears_or_keeps (h : exec i s = .next t) :
    (t.buf = [] ∧ t.exp = none) ∨ (s.buf <+: t.buf ∧ (s.exp ≠ none → t.exp = s.exp)) := by
  cases i with
  | feed b =>
    obtain hc | ⟨hb, he⟩ := exec_feed_clears_or_extends h
    · exact .inl hc
    · exact .inr ⟨hb ▸ List.prefix_append _ _, he⟩
  | idle => cases h; exact .inr ⟨List.prefix_rfl, fun _ => rfl⟩
  | reset => cases h; exact .inl ⟨rfl, rfl⟩

/-- Settles O29: a step that does not clear both keeps what the buffer holds and the expected length that is known. -/
theorem clearIsBothTogether : Obligations.ClearIsBothTogether := by
  refine ⟨fun s => rfl, fun i s t _ h => ?_⟩
  obtain ⟨hb, he⟩ | ⟨hp, hk⟩ := exec_clears_or_keeps h
  · exact ⟨fun _ _ => he, fun _ _ => hb⟩
  · exact ⟨fun hs ht => absurd (List.prefix_nil.mp (ht ▸ hp)) hs, fun hs ht => absurd ((hk hs).symm.trans ht) hs⟩

end Sys2Proof.Machine
end

section
/-! PROOFS. The operand of the length byte and the pseudo-event FEEDN (spec 30_encoding.md R45, R55): what FEED makes of
the length byte, and FEEDN as a run whose outputs are collected. -/

namespace Sys2Proof.Machine

variable {s : State} {b : Byte}

/-! ### The length byte -/

/-- After the FEED of the second byte, offset 1 reads that byte (R40). -/
theorem learned_byteAt_one (hi : s.Inv) (h : s.len = 1) : (learned s b).buf.byteAt 1 = some b := by
  have hl : s.buf.len = 1 := h
  exact hl ▸ Memory.byteAt_append_len (State.wf_of_inv hi)

/-- Settles O25: the FEED of the second byte learns `expectedLen`, whose 9-bit sum does not wrap. -/
theorem lengthByteGivesExpectedLength : Obligations.LengthByteGivesExpectedLength := by
  refine ⟨fun n s hi h => ⟨learned s n, expectedLen n, exec_feed_second hi h, learned_byteAt_one hi h, rfl, rfl,
    expectedLen_toNat n⟩, ?_, ?_, ?_⟩
  · exact expectedLen_toNat 0x00
  · exact expectedLen_toNat 0x02
  · exact expectedLen_toNat 0xFF

/-! ### FEEDN -/

/-- Going on twice is going on once with the composite. -/
theorem andThen_assoc {α β γ : Type} (x : Host.Outcome α Fault Refusal) (f : α → Host.Outcome β Fault Refusal)
    (g : β → Host.Outcome γ Fault Refusal) :
    andThen (andThen x f) g = andThen x fun a => andThen (f a) g := by
  cases x <;> rfl

/-- The first output of a trace contributes its frame, if it has one. -/
theorem emissions_cons (o : Option Frame) (outs : List (Option Frame)) :
    emissions (o :: outs) = o.toList ++ emissions outs := by
  cases o <;> rfl

/-- Settles O44, by induction on the chunk: both sides execute the first FEED, go on with the rest and put that step's
output first. -/
theorem feedNIsTheFeedsInOrder : Obligations.FeedNIsTheFeedsInOrder := by
  intro bs
  induction bs with
  | nil => exact fun _ => rfl
  | cons b bs ih =>
    intro s
    simp only [feedN, List.map_cons, run, ih, andThen_assoc, andThen_next, emissions_cons]

end Sys2Proof.Machine
end

section
/-! PROOFS. The stream events (spec 40_stream_events.md R60, R61, R72, R73): what FEED does in each phase, the shortest
frame, and what a pause leaves alone. -/

namespace Sys2Proof.Machine

variable {s t : State} {i : Instr} {is : List Instr} {outs : List (Option Frame)}

/-! ### FEED in each phase -/

/-- Settles O14: the first byte leaves the expected length unknown, the second sets it, and the sum does not wrap. -/
theorem feedInAwaitingHeader : Obligations.FeedInAwaitingHeader := by
  refine fun b s hi hl => ⟨?_, expectedLen_toNat b⟩
  obtain h0 | h1 : s.len = 0 ∨ s.len = 1 := by omega
  · have he : s.exp = none := State.exp_none_of_inv hi hl
    rw [exec_feed_first hi h0, if_neg (by omega), ← he]
    rfl
  · rw [exec_feed_second hi h1, if_pos (by omega)]
    rfl

/-- Settles O15: the law of FEED from 2 bytes on, with the next state written out on both sides of the comparison. -/
theorem feedInAwaitingBody : Obligations.FeedInAwaitingBody := by
  intro b s n hi hl he
  rw [exec_feed_body hi hl he]
  rfl

/-! ### The shortest frame -/

/-- From every cleared state, the length byte 0 makes the expected length 3, which the third byte reaches and no byte
before it. -/
theorem run_zero_payload_frame (hb : s.buf = []) (he : s.exp = none) (a c : Byte) :
    run [.feed a, .feed 0x00, .feed c] s =
      .next ({ s with out := some [a, 0x00, c] }, [none, none, some [a, 0x00, c]]) := by
  have hi : s.Inv := State.inv_of_cleared hb he
  have h0 : s.len = 0 := by rw [State.len, hb, Memory.len_nil]
  have hl1 : (appended s a).len = 1 := by rw [appended_len, h0]
  have hl2 : (learned (appended s a) 0x00).len = 2 := by rw [learned_len, hl1]
  have hi1 : (appended s a).Inv := appended_inv_first hi h0
  have h3 := exec_feed_body (b := c) (learned_inv hi1 hl1) hl2.ge rfl
  rw [if_pos (by rw [hl2]; rfl)] at h3
  rw [run_cons (exec_feed_first hi h0), run_cons (exec_feed_second hi1 hl1), run_cons h3]
  simp [emitted, learned, appended, hb, he]

/-- Settles O36: the reset state is cleared. -/
theorem zeroPayloadFrameAfterThreeBytes : Obligations.ZeroPayloadFrameAfterThreeBytes :=
  run_zero_payload_frame rfl rfl 0x05 0x00

/-! ### A pause -/

/-- No event reads the output of the step before it (R23). -/
theorem exec_out (i : Instr) (s : State) (o : Option Frame) : exec i { s with out := o } = exec i s := by
  cases i <;> rfl

/-- A run from a state whose output is dropped goes as the run from the state itself. -/
theorem run_quiet (h : run is s = .next (t, outs)) :
    ∃ u, run is s.quiet = .next (u, outs) ∧ u.buf = t.buf ∧ u.exp = t.exp := by
  cases is with
  | nil => cases h; exact ⟨s.quiet, rfl, rfl, rfl⟩
  | cons i is =>
    have hq : exec i s.quiet = exec i s := exec_out i s none
    exact ⟨t, by rw [run, hq]; exact h, rfl, rfl⟩

/-- IDLE steps before a run add steps without an output and change neither its outputs nor its final `buf` and `exp`. -/
theorem run_after_pause (k : Nat) (h : run is s = .next (t, outs)) :
    ∃ u, run (List.replicate k .idle ++ is) s = .next (u, List.replicate k none ++ outs) ∧
      u.buf = t.buf ∧ u.exp = t.exp := by
  induction k generalizing s t with
  | zero => exact ⟨t, h, rfl, rfl⟩
  | succ k ih =>
    obtain ⟨q, hq, hqb, hqe⟩ := run_quiet h
    obtain ⟨u, hu, hub, hue⟩ := ih hq
    refine ⟨u, ?_, hub.trans hqb, hue.trans hqe⟩
    rw [List.replicate_succ, List.cons_append, run_cons exec_idle, hu]
    rfl

/-- A run without RESET loses and repeats no byte (R69): what it emits and still holds is what was held and what was
fed. -/
theorem run_conserves (hr : .reset ∉ is) (h : run is s = .next (t, outs)) :
    (emissions outs).flatten ++ t.buf.bytes = s.buf.bytes ++ fedBytes is := by
  induction is generalizing s outs with
  | nil => cases h; simp [fedBytes]
  | cons i is ih =>
    obtain ⟨m, os, hm, hrun, rfl⟩ := run_cons_next h
    obtain ⟨hi, his⟩ := not_or.mp (mt List.mem_cons.mpr hr)
    calc (emissions (m.out :: os)).flatten ++ t.buf.bytes
        = m.out.toList.flatten ++ ((emissions os).flatten ++ t.buf.bytes) := by simp [emissions_cons]
      _ = (m.out.toList.flatten ++ m.buf.bytes) ++ fedBytes is := by rw [ih his hrun, List.append_assoc]
      _ = s.buf.bytes ++ fedBytes ([i] ++ is) := by
        rw [exec_conserves (Ne.symm hi) hm, fedBytes_append, List.append_assoc]

/-- Settles O43: a pause is a pause before the empty run, and the bytes fed are what comes after those held. -/
theorem pauseKeepsPartialFrame : Obligations.PauseKeepsPartialFrame := by
  refine fun s k _ => ⟨?_, fun is t outs h => ⟨run_after_pause k h, fun hr => ⟨fedBytes is, run_conserves hr h⟩⟩⟩
  simpa using run_after_pause k (run_nil (s := s))

end Sys2Proof.Machine
end

section
/-! PROOFS. The Frame Codec (spec 41_codec.md R78 to R82): the fields of the two wire forms, the buffers that decode,
and what the `crc` byte has a bearing on. -/

namespace Sys2Proof.Codec

variable {s : List Byte}

/-! ### The fields of an encoded request -/

theorem encode_length_byte (r : RequestFrame) : (encode r)[Config.requestLenOffset]? = some r.payloadLength := rfl

theorem encode_crc_byte (r : RequestFrame) : (encode r)[3]? = some r.crc := rfl

theorem encode_with_crc (r : RequestFrame) (c : Byte) : encode { r with crc := c } = (encode r).set 3 c := rfl

/-- Settles O51: the length byte does not wrap, since a request holds at most 255 payload bytes. -/
theorem encodeDerivesTheLengthByte : Obligations.EncodeDerivesTheLengthByte := by
  refine fun r => ⟨r.payloadLength, encode_length_byte r, r.payloadLength_toNat, ?_⟩
  rw [encode_length, r.payloadLength_toNat]

/-- Settles O50: the layout is the definition of `encode`, and the bound is the request's own. -/
theorem encodeLaysOutTheRequest : Obligations.EncodeLaysOutTheRequest :=
  ⟨fun r => ⟨rfl, encode_length r, r.payload_wf⟩, fun _ => rfl⟩

/-! ### The buffers that decode -/

theorem ResponseFrame.wire_length_byte (q : ResponseFrame) : q.wire[Config.lenOffset]? = some q.payloadLength := rfl

/-- `s` is as long as its length byte says: the test of `decode` for a buffer that has one. -/
def DeclaresItsLength (s : List Byte) : Prop := ∃ n : Byte, s[1]? = some n ∧ s.length = n.toNat + 3

/-- A wire form declares its length. -/
theorem ResponseFrame.wire_declaresItsLength (q : ResponseFrame) : DeclaresItsLength q.wire :=
  ⟨q.payloadLength, q.wire_length_byte, by rw [q.wire_length, q.length_eq]⟩

/-- A buffer that declares its length is the wire form of a frame, whose fields stand at their offsets. -/
theorem DeclaresItsLength.eq_wire (h : DeclaresItsLength s) : ∃ q : ResponseFrame, s = q.wire := by
  obtain ⟨n, hn, hl⟩ := h
  match s with
  | [] => cases hn
  | [_] => cases hn
  | [_, _] => simp at hl
  | code :: n' :: crc :: p =>
    obtain rfl : n' = n := Option.some.inj hn
    exact ⟨⟨code, n', crc, p, by simpa using hl⟩, rfl⟩

/-- Exactly the buffers that declare their length decode. -/
theorem decode_isOk_iff : (∃ q, decode s = .ok q) ↔ DeclaresItsLength s := by
  constructor
  · rintro ⟨q, h⟩
    exact decode_ok h ▸ q.wire_declaresItsLength
  · intro h
    obtain ⟨q, rfl⟩ := h.eq_wire
    exact ⟨q, decode_wire q⟩

/-- Every other buffer is malformed. -/
theorem decode_malformed_iff : decode s = .error .malformedFrame ↔ ¬ DeclaresItsLength s := by
  rw [← decode_isOk_iff]
  cases decode s with
  | ok q => simp
  | error e => cases e; simp

/-- Settles O52: such a buffer is the wire form of the frame it decodes to, and that has the fields at these offsets. -/
theorem decodeReadsTheFields : Obligations.DecodeReadsTheFields := by
  intro s n hn hl
  obtain ⟨q, rfl⟩ := DeclaresItsLength.eq_wire ⟨n, hn, hl⟩
  exact ⟨q, decode_wire q, rfl, Option.some.inj (q.wire_length_byte.symm.trans hn), rfl, rfl⟩

/-- Settles O53: a buffer without a length byte is too short, and one with a length byte fails on its length alone. -/
theorem decodeFailsOnItsTwoCauses : Obligations.DecodeFailsOnItsTwoCauses := by
  intro s
  rw [decode_malformed_iff, DeclaresItsLength]
  cases hn : s[1]? with
  | none =>
    have hs : s.length ≤ 1 := List.getElem?_eq_none_iff.mp hn
    exact iff_of_true (by simp) (.inl (by omega))
  | some n =>
    simp only [Option.some.injEq, exists_eq_left']
    omega

/-! ### The `crc` byte -/

/-- The `crc` byte is not the length byte. -/
theorem declaresItsLength_set_crc (c : Byte) : DeclaresItsLength (s.set 2 c) ↔ DeclaresItsLength s := by
  simp [DeclaresItsLength]

theorem ResponseFrame.wire_with_crc (q : ResponseFrame) (c : Byte) : { q with crc := c }.wire = q.wire.set 2 c := rfl

/-- A buffer that decodes, with another `crc` byte, decodes to the frame with that `crc`. -/
theorem decode_set_crc {q : ResponseFrame} (h : decode s = .ok q) (c : Byte) :
    decode (s.set 2 c) = .ok { q with crc := c } := by
  rw [decode_ok h, ← q.wire_with_crc c, decode_wire]

/-- Settles O55: whether a buffer decodes is up to its length byte and its length, which the `crc` byte leaves alone. -/
theorem crcIsPassedThrough : Obligations.CrcIsPassedThrough := by
  refine ⟨fun s c => ⟨fun q h => ⟨_, decode_set_crc h c, rfl, rfl, rfl, rfl⟩, fun h => ?_⟩,
    fun r c => ⟨encode_crc_byte r, encode_with_crc r c⟩⟩
  rw [decode_malformed_iff, declaresItsLength_set_crc]
  exact decode_malformed_iff.mp h

end Sys2Proof.Codec
end

section
/-! PROOFS. No run stops (spec 10_state.md R21, R26; 60_exceptions.md R89, R103): from the invariants a step answers a
next state, the invariants hold of it again, and they hold of every reachable state. -/

namespace Sys2Proof.Machine

variable {s t : State}

/-- Fetching the event word touches neither `buf` nor `exp`. -/
@[simp] theorem State.inv_fetch (s : State) : s.fetch.2.inv = s.inv := by
  unfold State.fetch
  split
  · rfl
  · exact s.inv_withInput _

/-- The step is that of the fetched word's event, and every event answers a next state from the invariants. -/
theorem step_next_of_inv (hi : s.Inv) : ∃ t, step s = .next t :=
  exec_next_of_inv (s.inv_fetch.trans hi) (decodeEvent s.fetch.1)

theorem step_keeps_inv (hi : s.Inv) (h : step s = .next t) : t.Inv := exec_keeps_inv (s.inv_fetch.trans hi) h

/-- The reset state satisfies the invariants, whatever words are presented to it, and every step keeps them. -/
theorem Reachable.inv (h : Reachable s) : s.Inv := by
  induction h with
  | reset ws => exact State.inv_of_cleared rfl rfl
  | step _ hs ih => exact step_keeps_inv ih hs

/-- A run whose first step answers `t` goes on from `t`. -/
theorem core_run_succ (h : step s = .next t) (k : Nat) : core.run (k + 1) s = core.run k t := by
  have hc : core.step s = .next t := h
  simp only [Host.Core.run, hc]

/-- The invariants carry a run through any number of steps. -/
theorem State.safe_of_inv (hi : s.Inv) : s.Safe := by
  intro k
  induction k generalizing s with
  | zero => exact ⟨s, rfl⟩
  | succ k ih =>
    obtain ⟨t, ht⟩ := step_next_of_inv hi
    rw [core_run_succ ht]
    exact ih (step_keeps_inv hi ht)

/-- Settles O11: a reachable state satisfies the invariants too, and no run from the invariants stops. -/
theorem noStepEverStops : Obligations.NoStepEverStops := by
  rintro s (hr | hi)
  · exact State.safe_of_inv hr.inv
  · exact State.safe_of_inv hi

end Sys2Proof.Machine
end

section
/-! PROOFS. The event words (spec 30_encoding.md R47 to R51): a word is taken apart into its three port signals, which
decide its event, its number and its row of the opcode table. -/

namespace Sys2Proof

variable (r v : Bool) (d : Byte) (w : EventWord)

/-! ### The signals of a word -/

theorem EventWord.exists_ofPorts : ∃ r v d, w = EventWord.ofPorts r v d := ⟨_, _, _, EventWord.eq_ofPorts w⟩

/-- Settles O4: the decoder asks for `rst` first and for `in_valid` second. -/
theorem portSignalsDecode : Obligations.PortSignalsDecode := by
  intro r v d
  rw [decodeEvent, EventWord.rst_ofPorts, EventWord.inValid_ofPorts, EventWord.inData_ofPorts]

@[simp] theorem decodeEvent_ofPorts :
    decodeEvent (EventWord.ofPorts r v d) = if r then .reset else if v then .feed d else .idle :=
  portSignalsDecode r v d

@[simp] theorem canonicalWord_ofPorts :
    canonicalWord (EventWord.ofPorts r v d) =
      if r then encode .reset else if v then EventWord.ofPorts r v d else encode .idle := by
  rw [canonicalWord, EventWord.rst_ofPorts, EventWord.inValid_ofPorts]
  rfl

/-- The number of a word: `rst` counts 512, `in_valid` 256, and `in_data` itself. -/
theorem EventWord.toNat_ofPorts :
    (EventWord.ofPorts r v d).toNat = (if r then 0x200 else 0) + (if v then 0x100 else 0) + d.toNat := by
  cases r <;> cases v <;> revert d <;> decide

/-- Settles O5: each word is written out bit by bit, so the decoder runs on it. -/
theorem sampleWordsDecode : Obligations.SampleWordsDecode := by
  unfold Obligations.SampleWordsDecode
  decide

/-! ### Decoding and encoding -/

theorem decodeEvent_encode (i : Instr) : decodeEvent (encode i) = i := by
  cases i with
  | feed b => rw [encode_feed, decodeEvent_ofPorts]; rfl
  | idle => rw [encode_idle, decodeEvent_ofPorts]; rfl
  | reset => rw [encode_reset, decodeEvent_ofPorts]; rfl

/-- Sixteen bits of the table's numbering hold every event word. -/
theorem decodeTableWord_toNat : decodeTableWord 16 w.toNat = some (decodeEvent w) := by
  have hlt : w.toNat < 2 ^ 10 := w.isLt
  have hmod : w.toNat % 2 ^ 16 = w.toNat := Nat.mod_eq_of_lt (by omega)
  rw [decodeTableWord, hmod, decodeBits, if_pos hlt, BitVec.ofNat_toNat, BitVec.setWidth_eq]

theorem encode_decodeEvent : encode (decodeEvent w) = canonicalWord w := by
  obtain ⟨r, v, d, rfl⟩ := w.exists_ofPorts
  rw [decodeEvent_ofPorts, canonicalWord_ofPorts]
  cases r with
  | true => rfl
  | false =>
    cases v with
    | true => exact encode_feed d
    | false => rfl

/-- Settles O1: an event's canonical word has its signals, and a word's event is that of its signals. -/
theorem decodeAndEncodeAgree : Obligations.DecodeAndEncodeAgree := by
  refine ⟨fun i _ => ⟨decodeEvent_encode i, ?_⟩, encode_decodeEvent⟩
  rw [decodeTableWord_toNat, decodeEvent_encode]

/-! ### The three ranges and the rows of the table -/

/-- Settles O2: the two control signals put the number of a word in one of the three ranges. -/
theorem eventWordsSplitIntoThreeRanges : Obligations.EventWordsSplitIntoThreeRanges := by
  intro w
  obtain ⟨r, v, d, rfl⟩ := w.exists_ofPorts
  have hd : d.toNat < 0x100 := d.isLt
  rw [decodeEvent_ofPorts, EventWord.toNat_ofPorts]
  cases r with
  | true =>
    simp only [reduceIte]
    exact ⟨iff_of_false nofun (by omega), fun b => iff_of_false nofun (by have := b.isLt; omega),
      iff_of_true trivial (by omega)⟩
  | false =>
    cases v with
    | true =>
      simp only [reduceIte, Bool.false_eq_true]
      refine ⟨iff_of_false nofun (by omega), fun b => ?_, iff_of_false nofun (by omega)⟩
      simp [BitVec.toNat_inj]
    | false =>
      simp only [reduceIte, Bool.false_eq_true]
      exact ⟨iff_of_true trivial (by omega), fun b => iff_of_false nofun (by omega),
        iff_of_false nofun (by omega)⟩

/-- Settles O3: a row admits a word by its control signals, which give the event and so its row. -/
theorem wordMatchesRowOfItsEvent : Obligations.WordMatchesRowOfItsEvent := by
  intro w i
  obtain ⟨r, v, d, rfl⟩ := w.exists_ofPorts
  rw [admits_iff, decodeEvent_ofPorts, EventWord.rst_ofPorts, EventWord.inValid_ofPorts]
  cases r with
  | true => cases i <;> simp [Instr.row]
  | false =>
    cases v with
    | true => cases i <;> simp [Instr.row]
    | false => cases i <;> simp [Instr.row]

end Sys2Proof
end

section
/-! PROOFS. The invariants and the events (spec 10_state.md R14, R21, R25; 40_stream_events.md R59 to R67, R74): what
holds at reset, and each law of FEED, IDLE and RESET read off the cases of one event. -/

namespace Sys2Proof.Machine

variable {s t : State} {b : Byte} {i : Instr} {n : Len9} {f : Frame}

/-! ### Reset and the invariants -/

/-- Settles O9: fetching keeps the invariants, and so does every event. -/
theorem everyStepKeepsInvariants : Obligations.EveryStepKeepsInvariants := fun _ _ => step_keeps_inv

/-- Settles O7: `len`, the phase and the predicate are computed from the two cleared elements. -/
theorem resetStateIsCleared : Obligations.ResetStateIsCleared := ⟨rfl, rfl, rfl, rfl, rfl, rfl⟩

/-- Settles O8: the reset state is cleared. -/
theorem invariantsHoldAtReset : Obligations.InvariantsHoldAtReset := fun _ => State.inv_of_cleared rfl rfl

/-! ### The expected length -/

/-- From 2 bytes on, fewer bytes are held than the frame will have, and that is at most 258 (I3 and I4 of R21). -/
theorem State.len_lt_exp (hi : s.Inv) (h : 2 ≤ s.len) (he : s.exp = some n) : s.len < n.toNat ∧ n.toNat ≤ 258 := by
  obtain ⟨-, k, -, hk, hlt⟩ := (State.inv_body_iff h).mp hi
  obtain rfl : n = expectedLen k := Option.some.inj (he.symm.trans hk)
  have hk255 : k.toNat < 256 := k.isLt
  rw [expectedLen_toNat]
  omega

/-- An expected length is known from 2 bytes on only. -/
theorem State.two_le_len_of_exp (hi : s.Inv) (he : s.exp = some n) : 2 ≤ s.len := by
  by_contra hlt
  cases he.symm.trans (State.exp_none_of_inv hi (by omega))

/-- The second byte plus 3, written as a 9-bit number. -/
theorem expectedLen_eq_ofNat (n : Byte) : expectedLen n = BitVec.ofNat 9 (n.toNat + 3) := by
  have hn : n.toNat < 256 := n.isLt
  apply BitVec.eq_of_toNat_eq
  rw [expectedLen_toNat, BitVec.toNat_ofNat, Nat.mod_eq_of_lt (by omega)]

/-- Settles O13: `len + 1` is at most the expected length, and both fit in 9 bits. -/
theorem lengthComparisonsAgree : Obligations.LengthComparisonsAgree := by
  intro s n hi h he
  obtain ⟨hlt, hmax⟩ := State.len_lt_exp hi h he
  have hmod : (s.len + 1) % 2 ^ 9 = s.len + 1 := Nat.mod_eq_of_lt (by omega)
  refine ⟨by omega, ?_⟩
  rw [← BitVec.toNat_inj, BitVec.toNat_ofNat, hmod]

/-! ### FEED -/

/-- Settles O17: in a state that satisfies the invariants FEED answers a next state, and outside it tests them first. -/
theorem feedRefusedOnlyOutsideInvariants : Obligations.FeedRefusedOnlyOutsideInvariants := by
  refine fun b s => ⟨fun h hi => ?_, fun hn => ?_⟩
  · obtain ⟨t, ht⟩ := exec_next_of_inv hi (.feed b)
    cases ht.symm.trans h
  · simp [exec, execFeed, hn]

/-- An append to a canonical buffer, in terms of the byte sequence. -/
theorem Memory.append_eq_ofBytes {m : Memory} (h : m.wf) : m.append b = Memory.ofBytes (m.bytes ++ [b]) := by
  rw [Memory.eq_ofBytes (Memory.wf_append h), Memory.bytes_append]

/-- Settles O16: the byte sequence with `b` has no second byte, has `b` as its second, or has the one it had. -/
theorem feedInOneFormulation : Obligations.FeedInOneFormulation := by
  intro b s hi
  have hbuf := Memory.append_eq_ofBytes (b := b) (State.wf_of_inv hi)
  have hbytes : s.buf.bytes.length = s.len := Memory.bytes_length
  obtain h0 | h1 | h2 : s.len = 0 ∨ s.len = 1 ∨ 2 ≤ s.len := by omega
  · have hsecond : (s.buf.bytes ++ [b])[1]? = none := by simp [hbytes, h0]
    rw [exec_feed_first hi h0, hsecond, appended, hbuf, State.exp_none_of_inv hi (by omega)]
  · have hsecond : (s.buf.bytes ++ [b])[1]? = some b := by simp [hbytes, h1]
    rw [exec_feed_second hi h1, hsecond, learned, hbuf, expectedLen_eq_ofNat]
    simp [hbytes, h1]
  · obtain ⟨-, k, hk, he, -⟩ := (State.inv_body_iff h2).mp hi
    have hsecond : (s.buf.bytes ++ [b])[1]? = some k := by
      rw [List.getElem?_append_left (by omega), hk]
    have hlen : (s.buf.bytes ++ [b]).length = s.len + 1 := by simp [hbytes]
    have hthree : 3 ≤ s.len + 1 := by omega
    rw [exec_feed_body hi h2 he, hsecond, expectedLen_toNat, appended, hbuf]
    simp only [hlen, hthree, true_and, ← expectedLen_eq_ofNat, ← he]
    rfl

/-- An event with an output is the FEED of the byte that makes `len` the expected length; it emits and clears. -/
theorem exec_emits (h : exec i s = .next t) (ho : t.out = some f) :
    ∃ b n, i = .feed b ∧ s.Inv ∧ 2 ≤ s.len ∧ s.exp = some n ∧ s.len + 1 = n.toNat ∧ f = s.buf.bytes ++ [b] ∧
      t = emitted s b := by
  cases i with
  | feed b =>
    obtain ⟨hi, ⟨-, rfl⟩ | ⟨-, rfl⟩ | ⟨_, -, -, -, rfl⟩ | ⟨n, h2, he, hn, rfl⟩⟩ := exec_feed_cases h
    · cases ho
    · cases ho
    · cases ho
    · cases ho
      exact ⟨b, n, rfl, hi, h2, he, hn, rfl, rfl⟩
  | idle => cases h; cases ho
  | reset => cases h; cases ho

/-- Settles O26: what has an output is such a FEED, and such a FEED has this output. -/
theorem outputExactlyAtLastByte : Obligations.OutputExactlyAtLastByte := by
  refine fun i s t f hi h => ⟨fun ho => ?_, ?_⟩
  · obtain ⟨b, n, hib, -, h2, he, hn, hf, -⟩ := exec_emits h ho
    exact ⟨b, n, hib, h2, he, hn, hf⟩
  · rintro ⟨b, n, rfl, h2, he, hn, rfl⟩
    rw [exec_feed_body hi h2 he, if_pos hn] at h
    cases h
    rfl

theorem Memory.byteAt_append_of_ne {m : Memory} {a : Nat} (h : m.wf) (ha : a ≠ m.len) :
    (m.append b).byteAt a = m.byteAt a := by
  rw [Memory.byteAt_append h, if_neg ha]

/-- A FEED without an output appends, and writes the expected length at the second byte only. -/
theorem exec_feed_silent (h : exec (.feed b) s = .next t) (ho : t.out = none) :
    t.buf = s.buf.append b ∧ (s.len ≠ 1 → t.exp = s.exp) := by
  obtain ⟨-, ⟨-, rfl⟩ | ⟨h1, rfl⟩ | ⟨_, -, -, -, rfl⟩ | ⟨_, -, -, -, rfl⟩⟩ := exec_feed_cases h
  · exact ⟨rfl, fun _ => rfl⟩
  · exact ⟨rfl, fun hne => absurd h1 hne⟩
  · exact ⟨rfl, fun _ => rfl⟩
  · cases ho

/-- Settles O21: without an output the buffer is the one before with `b` appended, with one it is empty. -/
theorem feedFrame : Obligations.FeedFrame := by
  refine fun b s t h => ⟨exec_input h, fun ho => ?_, fun f ho => ?_⟩
  · have hw : s.buf.wf := State.wf_of_inv (exec_feed_cases h).1
    obtain ⟨hb, he⟩ := exec_feed_silent h ho
    rw [hb]
    exact ⟨Memory.byteAt_append_len hw, fun _ ha => Memory.byteAt_append_of_ne hw ha, he⟩
  · obtain ⟨_, _, -, -, -, -, -, -, rfl⟩ := exec_emits h ho
    exact ⟨fun _ => rfl, rfl⟩

/-! ### IDLE and RESET -/

/-- Settles O18: IDLE is `out <- none` and nothing else. -/
theorem idleOnlyClearsOutput : Obligations.IdleOnlyClearsOutput := fun _ => rfl

/-- Settles O19: RESET is `out <- none` and Clear, and tests nothing first. -/
theorem resetClearsFromAnyState : Obligations.ResetClearsFromAnyState := fun _ => rfl

/-- Settles O22: the next states of O18 and O19, read at every offset. -/
theorem idleAndResetFrame : Obligations.IdleAndResetFrame := by
  refine fun s t => ⟨fun h => ?_, fun h => ?_⟩
  · cases h
    exact ⟨fun _ => rfl, rfl, rfl⟩
  · cases h
    exact ⟨fun _ => rfl, rfl⟩

/-! ### All three events -/

/-- R74's rows of FEED from 2 bytes on: below the expected length and at it. -/
theorem exec_feed_body_row (hi : s.Inv) (h2 : 2 ≤ s.len) (he : s.exp = some n) (h : exec (.feed b) s = .next t) :
    s.len + 1 < n.toNat ∧ t.phase = .awaitingBody ∧ t.len = s.len + 1 ∧ t.exp = some n ∧ t.out = none ∨
    s.len + 1 = n.toNat ∧ t.phase = .awaitingHeader ∧ t.len = 0 ∧ t.exp = none ∧
      ∃ f, t.out = some f ∧ f.length = n.toNat := by
  obtain ⟨hlt, -⟩ := State.len_lt_exp hi h2 he
  rw [exec_feed_body hi h2 he] at h
  split at h
  next hn =>
    cases h
    have hf : (s.buf.bytes ++ [b]).length = n.toNat := by simpa [State.len] using hn
    exact .inr ⟨hn, rfl, rfl, rfl, _, rfl, hf⟩
  next hn =>
    cases h
    have hp : 2 ≤ (appended s b).len := by rw [appended_len]; omega
    exact .inl ⟨by omega, State.phase_body_iff.mpr hp, appended_len, he, rfl⟩

/-- Settles O20, row by row. -/
theorem transitionTable : Obligations.TransitionTable := by
  intro i s t hi h
  cases i with
  | feed b =>
    refine ⟨fun h0 => ?_, fun h1 => ?_, fun h2 => ?_⟩
    · cases h.symm.trans (exec_feed_first hi h0)
      have hl : (appended s b).len = 1 := by rw [appended_len, h0]
      have he : s.exp = none := State.exp_none_of_inv hi (by omega)
      exact ⟨State.phase_header_iff.mpr (by omega), hl, he, rfl⟩
    · cases h.symm.trans (exec_feed_second hi h1)
      have hl : (learned s b).len = 2 := by rw [learned_len, h1]
      exact ⟨State.phase_body_iff.mpr (by omega), hl, rfl, rfl⟩
    · obtain ⟨-, k, -, he, -⟩ := (State.inv_body_iff h2).mp hi
      exact ⟨State.len_le_of_inv hi, expectedLen k, he, exec_feed_body_row hi h2 he h⟩
  | idle => cases h; exact ⟨rfl, rfl, rfl, rfl⟩
  | reset => cases h; exact ⟨rfl, rfl, rfl, rfl⟩

/-- What changes the expected length is the FEED of the second byte, an emission or RESET (R14). -/
theorem exec_writes_exp (h : exec i s = .next t) (hne : t.exp ≠ s.exp) :
    (∃ b, i = .feed b ∧ t.len = 2 ∧ ∃ n, t.buf.byteAt 1 = some n ∧ t.exp = some (expectedLen n)) ∨
    (t.out ≠ none ∧ t.exp = none) ∨ (i = .reset ∧ t.exp = none) := by
  cases i with
  | feed b =>
    obtain ⟨hi, ⟨-, rfl⟩ | ⟨h1, rfl⟩ | ⟨_, -, -, -, rfl⟩ | ⟨_, -, -, -, rfl⟩⟩ := exec_feed_cases h
    · exact absurd rfl hne
    · exact .inl ⟨b, rfl, by rw [learned_len, h1], b, learned_byteAt_one hi h1, rfl⟩
    · exact absurd rfl hne
    · exact .inr (.inl ⟨Option.some_ne_none _, rfl⟩)
  | idle => cases h; exact absurd rfl hne
  | reset => cases h; exact .inr (.inr ⟨rfl, rfl⟩)

/-- Settles O24: a length known in `t` is above the at least 2 bytes that `t` holds. -/
theorem expectedLengthHasThreeWriters : Obligations.ExpectedLengthHasThreeWriters := by
  refine fun i s t hi h => ⟨exec_writes_exp h, fun n he => ?_⟩
  have hit : t.Inv := exec_keeps_inv hi h
  have h2 : 2 ≤ t.len := State.two_le_len_of_exp hit he
  obtain ⟨hlt, hmax⟩ := State.len_lt_exp hit h2 he
  exact ⟨by omega, hmax⟩

end Sys2Proof.Machine
end

section
/-! PROOFS. Reads of the buffer and single steps (spec 20_memory.md R29; 40_stream_events.md R58; 10_state.md R17, R23):
what MemRead gives, which event a step runs, and what of the state it depends on. -/

namespace Sys2Proof.Machine

variable {m : Memory} {s s' t : State} {i : Instr} {is : List Instr} {outs : List (Option Frame)}

/-! ### MemRead -/

theorem Memory.memRead_isDefined_iff {addr n : Nat} : (∃ bs, m.memRead addr n = some bs) ↔ addr + n ≤ m.len := by
  simp [Memory.memRead_eq_some]

/-- Settles O27: what MemRead gives is `n` bytes of the sequence from `addr` on, and `byteAt` reads that sequence. -/
theorem memReadGivesBytesInOrder : Obligations.MemReadGivesBytesInOrder := by
  refine fun m addr n hw => ⟨Memory.memRead_isDefined_iff, fun bs h => ?_⟩
  obtain ⟨hle, rfl⟩ := Memory.memRead_eq_some.mp h
  refine ⟨?_, fun i hi => ?_⟩
  · rw [List.length_take, List.length_drop, Memory.bytes_length]
    omega
  · rw [List.getElem?_take_of_lt hi, List.getElem?_drop, Memory.byteAt_eq hw]

/-! ### The event of a step -/

/-- Settles O30: the two ways to fetch. -/
theorem stepRunsDecodedEvent : Obligations.StepRunsDecodedEvent := ⟨fun _ _ _ => step_cons, fun _ => step_nil⟩

/-- Sixteen bits keep every bit of an event word. -/
theorem State.withFetchWord_toNat (s : State) (w : EventWord) : s.withFetchWord 16 w.toNat = s.present w := by
  have hmod : w.toNat % 2 ^ 16 = w.toNat := Nat.mod_eq_of_lt (by have := w.isLt; omega)
  rw [State.withFetchWord, hmod, BitVec.ofNat_toNat, BitVec.setWidth_eq]

/-- Settles O31: the word is placed whole, and a presented word is the event of its step. -/
theorem placedWordRunsNext : Obligations.PlacedWordRunsNext := by
  intro s w
  rw [State.withFetchWord_toNat, step_present]

/-- Fetching leaves the output field as it is. -/
theorem State.fetch_out (s : State) (o : Option Frame) :
    State.fetch { s with out := o } = (s.fetch.1, { s.fetch.2 with out := o }) := by
  obtain ⟨buf, exp, out, _ | ⟨w, ws⟩⟩ := s
  · rfl
  · rfl

/-- Settles O33: a step is an event, and no event reads the output. -/
theorem noStepReadsTheOutput : Obligations.NoStepReadsTheOutput := by
  intro s o
  rw [step, State.fetch_out, exec_out, step]

/-- As many steps as words are lined up are the run over their events: each step takes its word off the list, and no
event reads what is left of it. -/
theorem stepRun_withInput (ws : List EventWord) (s : State) :
    stepRun ws.length (s.withInput ws) = run (ws.map decodeEvent) (s.withInput []) := by
  induction ws generalizing s with
  | nil => rfl
  | cons w ws ih =>
    have hstep : step (s.withInput (w :: ws)) = andThen (exec (decodeEvent w) s) fun t => .next (t.withInput ws) :=
      (step_cons rfl).trans (exec_withInput _ s ws)
    simp only [List.length_cons, List.map_cons, stepRun, run, hstep, exec_withInput, andThen_assoc, andThen_next, ih,
      State.withInput_out]

/-- Settles O32: the words of the input are the ones lined up. -/
theorem stepsAreTheRunOfTheInput : Obligations.StepsAreTheRunOfTheInput := fun s => stepRun_withInput s.input s

/-! ### What a run depends on -/

/-- The two states hold the same `buf` and `exp`, the whole state the spec gives the block (R17). -/
def State.Agree (s s' : State) : Prop := s.buf = s'.buf ∧ s.exp = s'.exp

/-- From states that agree an event has the same output and leads to states that agree. -/
theorem exec_of_agree (ha : s.Agree s') (h : exec i s = .next t) :
    ∃ t', exec i s' = .next t' ∧ t'.out = t.out ∧ t.Agree t' := by
  obtain ⟨hb, he⟩ := ha
  have hs : s' = State.withInput { s with out := s'.out } s'.input := by
    cases s'
    simp_all [State.withInput]
  refine ⟨t.withInput s'.input, ?_, rfl, rfl, rfl⟩
  rw [hs, exec_withInput, exec_out, h]
  rfl

/-- From states that agree a run has the same outputs and ends in states that agree. -/
theorem run_of_agree (ha : s.Agree s') (h : run is s = .next (t, outs)) :
    ∃ t', run is s' = .next (t', outs) ∧ t.Agree t' := by
  induction is generalizing s s' outs with
  | nil => cases h; exact ⟨s', rfl, ha⟩
  | cons i is ih =>
    obtain ⟨m, os, hm, hr, rfl⟩ := run_cons_next h
    obtain ⟨m', hm', hout, hma⟩ := exec_of_agree ha hm
    obtain ⟨t', hr', hta⟩ := ih hma hr
    exact ⟨t', by rw [run_cons hm', hr', hout]; rfl, hta⟩

/-- Settles O34: such states agree. -/
theorem onlyBufferAndExpectedLengthMatter : Obligations.OnlyBufferAndExpectedLengthMatter := by
  intro s s' is hb he t outs h
  obtain ⟨t', hr, hb', he'⟩ := run_of_agree ⟨hb, he⟩ h
  exact ⟨t', hr, hb'.symm, he'.symm⟩

/-- RESET leaves nothing of a state but the words lined up. -/
theorem quiet_clear_eq (h : s.input = s'.input) : s.quiet.clear = s'.quiet.clear := by
  simp [State.quiet, State.clear, h]

/-- Settles O35: both runs go on from the same cleared state; an emission clears as RESET does. -/
theorem resetForgetsEverything : Obligations.ResetForgetsEverything := by
  refine ⟨fun s s' is h => ?_, fun b s t f h ho => ?_⟩
  · rw [run_cons exec_reset, run_cons exec_reset, quiet_clear_eq h]
  · obtain ⟨_, _, -, -, -, -, -, -, rfl⟩ := exec_emits h ho
    rfl

end Sys2Proof.Machine
end

section
/-! PROOFS. Every byte is accounted for, pauses and chunks do not matter (spec 40_stream_events.md R69, R70): runs from
the invariants, their two parts, and the events since the last RESET. -/

namespace Sys2Proof.Machine

variable {s t u m : State} {i : Instr} {is js : List Instr} {os ps : List (Option Frame)}

/-! ### Runs from the invariants -/

/-- Runs that follow one another are one run. -/
theorem run_append_next (h : run is s = .next (m, os)) (h' : run js m = .next (t, ps)) :
    run (is ++ js) s = .next (t, os ++ ps) := by
  simp only [run_append, h, h', andThen_next]

/-- A run that answers next has one output for each event. -/
theorem run_length (h : run is s = .next (t, os)) : os.length = is.length := by
  induction is generalizing s os with
  | nil => cases h; rfl
  | cons i is ih =>
    obtain ⟨m, os', -, hr, rfl⟩ := run_cons_next h
    rw [List.length_cons, List.length_cons, ih hr]

theorem run_keeps_inv (hi : s.Inv) (h : run is s = .next (t, os)) : t.Inv := by
  induction is generalizing s os with
  | nil => cases h; exact hi
  | cons i is ih =>
    obtain ⟨m, os', hm, hr, -⟩ := run_cons_next h
    exact ih (exec_keeps_inv hi hm) hr

/-- From the invariants every run answers next. -/
theorem run_next_of_inv (hi : s.Inv) (is : List Instr) : ∃ t os, run is s = .next (t, os) := by
  induction is generalizing s with
  | nil => exact ⟨s, [], rfl⟩
  | cons i is ih =>
    obtain ⟨m, hm⟩ := exec_next_of_inv hi i
    obtain ⟨t, os, hr⟩ := ih (exec_keeps_inv hi hm)
    exact ⟨t, m.out :: os, by rw [run_cons hm, hr]; rfl⟩

/-! ### The events since the last RESET -/

/-- A sequence with a RESET has a last one, and what stands after it is what came since. -/
theorem exists_eq_append_sinceReset (h : .reset ∈ is) :
    ∃ before, is = before ++ .reset :: sinceReset is ∧ .reset ∉ sinceReset is := by
  obtain ⟨after, before, hrev, hnot⟩ := List.eq_append_cons_of_mem (List.mem_reverse.mpr h)
  have his : is = before.reverse ++ .reset :: after.reverse := by simpa using congrArg List.reverse hrev
  have hafter : .reset ∉ after.reverse := by simpa using hnot
  have hsince : sinceReset is = after.reverse := by
    rw [his, sinceReset_append_reset, sinceReset_of_not_mem hafter]
  exact ⟨before.reverse, hsince ▸ his, hsince ▸ hafter⟩

theorem Memory.bytes_eq_nil_iff {b : Memory} : b.bytes = [] ↔ b = [] := List.map_eq_nil_iff

/-- Every run from the invariants ends with a run, without RESET, of the events since the last RESET: from a state with
no byte if there is a RESET, and else from the start. -/
theorem run_since_reset (hi : s.Inv) (is : List Instr) :
    ∃ c t os ps, c.buf.bytes = (if .reset ∈ is then [] else s.buf.bytes) ∧ .reset ∉ sinceReset is ∧
      run (sinceReset is) c = .next (t, ps) ∧ run is s = .next (t, os ++ ps) := by
  by_cases hr : .reset ∈ is
  · obtain ⟨before, his, hnot⟩ := exists_eq_append_sinceReset hr
    obtain ⟨m, os, hm⟩ := run_next_of_inv hi before
    obtain ⟨t, ps, ht⟩ := run_next_of_inv (State.inv_of_cleared rfl rfl : m.quiet.clear.Inv) (sinceReset is)
    have hreset : run (.reset :: sinceReset is) m = .next (t, none :: ps) := by
      rw [run_cons exec_reset, ht]
      rfl
    refine ⟨m.quiet.clear, t, os ++ [none], ps, (if_pos hr).symm, hnot, ht, ?_⟩
    rw [List.append_assoc, List.singleton_append, his]
    exact run_append_next hm hreset
  · obtain ⟨t, ps, ht⟩ := run_next_of_inv hi is
    have hsince : sinceReset is = is := sinceReset_of_not_mem hr
    exact ⟨s, t, [], ps, (if_neg hr).symm, by rwa [hsince], by rwa [hsince], ht⟩

/-- Settles O39: the run since the last RESET neither loses nor repeats a byte. -/
theorem bytesAreConserved : Obligations.BytesAreConserved := by
  intro s is hi
  obtain ⟨c, t, os, ps, hc, hnot, hsince, hrun⟩ := run_since_reset hi is
  refine ⟨t, os ++ ps, hrun, run_length hrun, ?_⟩
  have hdrop : (os ++ ps).drop (is.length - (sinceReset is).length) = ps := by
    rw [← run_length hrun, ← run_length hsince, List.length_append, Nat.add_sub_cancel, List.drop_left]
  have hfed := run_conserves hnot hsince
  rw [hc] at hfed
  simp only [hdrop]
  refine ⟨hfed, ?_⟩
  rw [← hfed, ← Memory.bytes_eq_nil_iff, List.self_eq_append_right]

/-! ### Pauses and chunks -/

theorem State.Agree.symm (h : s.Agree t) : t.Agree s := ⟨h.1.symm, h.2.symm⟩

theorem State.Agree.trans (h : s.Agree t) (h' : t.Agree u) : s.Agree u := ⟨h.1.trans h'.1, h.2.trans h'.2⟩

/-- The same run with its IDLEs left out: the same frames, and a last state that agrees. -/
theorem run_without_idle (h : run is s = .next (t, os)) :
    ∃ u ps, run (is.filter (· ≠ .idle)) s = .next (u, ps) ∧ emissions ps = emissions os ∧ t.Agree u := by
  induction is generalizing s os with
  | nil => cases h; exact ⟨t, [], rfl, rfl, rfl, rfl⟩
  | cons i is ih =>
    obtain ⟨m, os', hm, hr, rfl⟩ := run_cons_next h
    obtain ⟨v, ps, hv, hps, htv⟩ := ih hr
    by_cases hidle : i = .idle
    · subst hidle
      cases hm
      obtain ⟨u, hu, hvu⟩ := run_of_agree (⟨rfl, rfl⟩ : s.quiet.Agree s) hv
      exact ⟨u, ps, by simpa using hu, by simpa using hps, htv.trans hvu⟩
    · refine ⟨v, m.out :: ps, ?_, by rw [emissions_cons, emissions_cons, hps], htv⟩
      rw [List.filter_cons_of_pos (by simpa using hidle), run_cons hm, hv]
      rfl

theorem feedN_eq_run (bs : List Byte) (s : State) :
    feedN bs s = andThen (run (bs.map .feed) s) fun r => .next (r.1, emissions r.2) :=
  feedNIsTheFeedsInOrder bs s

/-- A chunk of two parts is the one part fed after the other. -/
theorem feedN_append (bs cs : List Byte) (s : State) :
    feedN (bs ++ cs) s =
      andThen (feedN bs s) fun r => andThen (feedN cs r.1) fun q => .next (q.1, r.2 ++ q.2) := by
  simp only [feedN_eq_run, List.map_append, run_append, andThen_assoc, andThen_next, emissions_append]

/-- Chunks one after the other are one chunk (R70). -/
theorem feedChunks_eq_feedN_flatten (chunks : List (List Byte)) (s : State) :
    feedChunks chunks s = feedN chunks.flatten s := by
  induction chunks generalizing s with
  | nil => rfl
  | cons c cs ih => simp only [feedChunks, List.flatten_cons, feedN_append, ih]

/-- Settles O40: both sequences are the same run once their IDLEs are left out. -/
theorem pausesAndChunksDoNotMatter : Obligations.PausesAndChunksDoNotMatter := by
  refine ⟨fun s is js hi heq => ?_, fun s chunks => feedChunks_eq_feedN_flatten chunks s⟩
  obtain ⟨t, os, ht⟩ := run_next_of_inv hi is
  obtain ⟨u, ps, hu⟩ := run_next_of_inv hi js
  obtain ⟨v, qs, hv, hos, htv⟩ := run_without_idle ht
  obtain ⟨w, rs, hw, hps, huw⟩ := run_without_idle hu
  cases (heq ▸ hv).symm.trans hw
  obtain ⟨hb, he⟩ := htv.trans huw.symm
  exact ⟨t, u, os, ps, ht, hu, hos.symm.trans hps, hb, he⟩

end Sys2Proof.Machine
end

section
/-! PROOFS. Frames (spec 40_stream_events.md R64, R68, R71; 41_codec.md R85 to R87; 70_reset_and_hazards.md R118, R120):
what the bytes of one frame make of a state, and what that says of a run that is fed frames. -/

namespace Sys2Proof.Machine

variable {s t u : State} {b n : Byte} {i : Instr} {is : List Instr} {os : List (Option Frame)} {bs : List Byte}
  {e : Len9} {f : Frame}

/-! ### The bytes a frame waits for -/

theorem run_feed_append (h : run (bs.map .feed) s = .next (t, os)) (hu : exec (.feed b) t = .next u) :
    run ((bs ++ [b]).map .feed) s = .next (u, os ++ [u.out]) := by
  rw [List.map_append]
  exact run_append_next h (by rw [List.map_singleton, run_cons hu]; rfl)

/-- Fewer bytes than a begun frame waits for are appended without an output (R120). -/
theorem run_feeds_below (hi : s.Inv) (h2 : 2 ≤ s.len) (he : s.exp = some e) (hlt : s.len + bs.length < e.toNat) :
    ∃ t, run (bs.map .feed) s = .next (t, List.replicate bs.length none) ∧ t.Inv ∧
      t.buf.bytes = s.buf.bytes ++ bs ∧ t.exp = some e := by
  induction bs generalizing s with
  | nil => exact ⟨s, rfl, hi, (List.append_nil _).symm, he⟩
  | cons b bs ih =>
    rw [List.length_cons] at hlt
    have hne : s.len + 1 ≠ e.toNat := by omega
    have hb := exec_feed_body (b := b) hi h2 he
    rw [if_neg hne] at hb
    obtain ⟨t, ht, hti, hbytes, hte⟩ := ih (s := appended s b) (appended_inv_body hi h2 he hne)
      (by rw [appended_len]; omega) he (by rw [appended_len]; omega)
    refine ⟨t, ?_, hti, ?_, hte⟩
    · rw [List.map_cons, run_cons hb, ht]
      rfl
    · rw [hbytes, appended, Memory.bytes_append, List.append_assoc, List.singleton_append]

/-- The last byte a begun frame waits for emits it (R120). -/
theorem run_feeds_complete (hi : s.Inv) (h2 : 2 ≤ s.len) (he : s.exp = some e) (heq : s.len + bs.length = e.toNat) :
    ∃ t, run (bs.map .feed) s = .next (t, List.replicate (bs.length - 1) none ++ [some (s.buf.bytes ++ bs)]) ∧
      t.buf = [] ∧ t.exp = none := by
  obtain rfl | ⟨init, b, rfl⟩ := List.eq_nil_or_concat bs
  · obtain ⟨hlt, -⟩ := State.len_lt_exp hi h2 he
    rw [List.length_nil] at heq
    omega
  · rw [List.concat_eq_append, List.length_append, List.length_singleton] at heq ⊢
    obtain ⟨t, ht, hti, hbytes, hte⟩ := run_feeds_below (bs := init) hi h2 he (by omega)
    have hlen : t.len = s.len + init.length := by
      simpa [State.len] using congrArg List.length hbytes
    have hb := exec_feed_body (b := b) hti (by omega) hte
    rw [if_pos (by omega)] at hb
    refine ⟨emitted t b, ?_, rfl, rfl⟩
    rw [run_feed_append ht hb, emitted, hbytes, List.append_assoc, Nat.add_sub_cancel]

/-- Settles O46: the bytes a begun frame waits for, all of them or fewer. -/
theorem frameCompletesWithItsLastByte : Obligations.FrameCompletesWithItsLastByte := by
  refine fun s n bs hi h2 he => ⟨run_feeds_complete hi h2 he, fun hlt => ?_⟩
  obtain ⟨t, ht, -, hbytes, hte⟩ := run_feeds_below hi h2 he hlt
  exact ⟨t, ht, hbytes, hte⟩

/-! ### A frame from its first byte on -/

/-- The first two bytes in a cleared state: both are held, and the second has set the expected length. -/
theorem run_frame_header (hb : s.buf = []) (he : s.exp = none) (a n : Byte) :
    ∃ t, run [.feed a, .feed n] s = .next (t, [none, none]) ∧ t.Inv ∧ t.buf.bytes = [a, n] ∧ t.len = 2 ∧
      t.exp = some (expectedLen n) := by
  have hi : s.Inv := State.inv_of_cleared hb he
  have h0 : s.len = 0 := by rw [State.len, hb, Memory.len_nil]
  have h1 : (appended s a).len = 1 := by rw [appended_len, h0]
  have hi1 : (appended s a).Inv := appended_inv_first hi h0
  refine ⟨learned (appended s a) n, ?_, learned_inv hi1 h1, ?_, by rw [learned_len, h1], rfl⟩
  · rw [run_cons (exec_feed_first hi h0), run_cons (exec_feed_second hi1 h1)]
    rfl
  · simp [learned, appended, hb]

/-- Fewer bytes than the second one declares stay in the buffer. -/
theorem run_partial_frame (hb : s.buf = []) (he : s.exp = none) (hn : bs[1]? = some n) (hlt : bs.length < n.toNat + 3) :
    ∃ t, run (bs.map .feed) s = .next (t, List.replicate bs.length none) ∧ t.Inv ∧ t.buf.bytes = bs ∧
      t.exp = some (expectedLen n) := by
  match bs with
  | [] | [_] => cases hn
  | a :: n' :: rest =>
    obtain rfl : n' = n := Option.some.inj hn
    obtain ⟨t, ht, hti, htb, htl, hte⟩ := run_frame_header hb he a n'
    have hrest : t.len + rest.length < (expectedLen n').toNat := by
      simp only [List.length_cons] at hlt
      rw [expectedLen_toNat, htl]
      omega
    obtain ⟨u, hu, hui, hub, hue⟩ := run_feeds_below hti htl.ge hte hrest
    exact ⟨u, run_append_next ht hu, hui, by rw [hub, htb]; rfl, hue⟩

/-- A frame is well formed when it declares its length (R42, R80). -/
theorem wf_iff_declaresItsLength : Frame.wf f ↔ Codec.DeclaresItsLength f := by
  simp [Frame.wf, Codec.DeclaresItsLength, eq_comm]

/-- As many bytes as the second one declares are emitted in the step of the last one, and leave a cleared state. -/
theorem run_whole_frame (hb : s.buf = []) (he : s.exp = none) (hf : Codec.DeclaresItsLength f) :
    ∃ t, run (f.map .feed) s = .next (t, List.replicate (f.length - 1) none ++ [some f]) ∧ t.buf = [] ∧
      t.exp = none := by
  obtain ⟨n, hn, hl⟩ := hf
  match f with
  | [] | [_] => cases hn
  | [_, _] => simp at hl
  | a :: n' :: b :: rest =>
    obtain rfl : n' = n := Option.some.inj hn
    obtain ⟨t, ht, hti, htb, htl, hte⟩ := run_frame_header hb he a n'
    have hrest : t.len + (b :: rest).length = (expectedLen n').toNat := by
      simp only [List.length_cons] at hl ⊢
      rw [expectedLen_toNat, htl]
      omega
    obtain ⟨u, hu, hub, hue⟩ := run_feeds_complete hti htl.ge hte hrest
    rw [htb] at hu
    exact ⟨u, run_append_next ht hu, hub, hue⟩

/-- Frames back to back: each one starts from the cleared state the one before left. -/
theorem run_frames (ws : List Frame) (hb : s.buf = []) (he : s.exp = none) (hw : ∀ w ∈ ws, Codec.DeclaresItsLength w) :
    ∃ t, run (ws.flatten.map .feed) s =
        .next (t, ws.flatMap fun w => List.replicate (w.length - 1) none ++ [some w]) ∧
      t.buf = [] ∧ t.exp = none := by
  induction ws generalizing s with
  | nil => exact ⟨s, rfl, hb, he⟩
  | cons w ws ih =>
    obtain ⟨m, hm, hmb, hme⟩ := run_whole_frame hb he (hw w List.mem_cons_self)
    obtain ⟨t, ht, htb, hte⟩ := ih hmb hme fun v hv => hw v (List.mem_cons_of_mem w hv)
    refine ⟨t, ?_, htb, hte⟩
    rw [List.flatten_cons, List.map_append, List.flatMap_cons]
    exact run_append_next hm ht

/-- Settles O41: the reset state is cleared. -/
theorem backToBackFramesEmittedInOrder : Obligations.BackToBackFramesEmittedInOrder :=
  fun ws hw => run_frames ws rfl rfl fun w hm => wf_iff_declaresItsLength.mp (hw w hm)

/-! ### Frames in chunks -/

@[simp] theorem emissions_replicate_none (k : Nat) : emissions (List.replicate k none) = [] := by
  simp [emissions]

/-- A frame fed as one chunk is emitted alone. -/
theorem feedN_whole_frame (hb : s.buf = []) (he : s.exp = none) (hf : Codec.DeclaresItsLength f) :
    ∃ t, feedN f s = .next (t, [f]) ∧ t.buf = [] ∧ t.exp = none := by
  obtain ⟨t, ht, htb, hte⟩ := run_whole_frame hb he hf
  exact ⟨t, by rw [feedN_eq_run, ht]; simp, htb, hte⟩

/-- Settles O42: the chunks are the frame fed as one chunk, and a well-formed frame is a wire form. -/
theorem wellFormedFrameArrivesAndDecodes : Obligations.WellFormedFrameArrivesAndDecodes := by
  rintro w chunks hw rfl
  have hf := wf_iff_declaresItsLength.mp hw
  obtain ⟨t, ht, htb, hte⟩ := feedN_whole_frame (s := State.reset) rfl rfl hf
  obtain ⟨q, hq⟩ := hf.eq_wire
  exact ⟨t, (feedChunks_eq_feedN_flatten _ _).trans ht, htb, hte, q, hq ▸ Codec.decode_wire q, hq.symm⟩

/-- A chunk from the invariants answers next. -/
theorem feedN_next_of_inv (hi : s.Inv) (bs : List Byte) : ∃ t fs, feedN bs s = .next (t, fs) := by
  obtain ⟨t, os, ht⟩ := run_next_of_inv hi (bs.map .feed)
  exact ⟨t, emissions os, by rw [feedN_eq_run, ht]; rfl⟩

/-- The first bytes of an encoded request, as many as its `op_code` declares, are a frame to the reassembler. -/
theorem request_prefix_declaresItsLength (r : Codec.RequestFrame)
    (hl : r.opCode.toNat + 3 ≤ (Codec.encode r).length) :
    Codec.DeclaresItsLength ((Codec.encode r).take (r.opCode.toNat + 3)) := by
  refine ⟨r.opCode, ?_, by rw [List.length_take, Nat.min_eq_left hl]⟩
  rw [List.getElem?_take_of_lt (by omega)]
  rfl

/-- Settles O56: the reassembler takes the `op_code`, the second byte of the request, for the length byte. -/
theorem requestIsFramedByItsOpCode : Obligations.RequestIsFramedByItsOpCode := by
  refine fun r => ⟨fun hl => ?_, fun hl => ?_⟩
  · obtain ⟨m, hm, hmb, hme⟩ :=
      feedN_whole_frame (s := State.reset) rfl rfl (request_prefix_declaresItsLength r hl)
    obtain ⟨t, fs, ht⟩ := feedN_next_of_inv (State.inv_of_cleared hmb hme)
      ((Codec.encode r).drop (r.opCode.toNat + 3))
    refine ⟨t, fs, ?_⟩
    conv => lhs; rw [← List.take_append_drop (r.opCode.toNat + 3) (Codec.encode r)]
    rw [feedN_append, hm, andThen_next, ht]
    rfl
  · obtain ⟨t, ht, -, htb, -⟩ := run_partial_frame (s := State.reset) rfl rfl (n := r.opCode) rfl hl
    exact ⟨t, by rw [feedN_eq_run, ht]; simp, htb⟩

/-! ### The frames a run emits -/

/-- The bytes held and the last one make the length that the second byte declares. -/
theorem exec_out_declaresItsLength (h : exec i s = .next t) (ho : t.out = some f) : Codec.DeclaresItsLength f := by
  obtain ⟨b, e, -, hi, h2, he, hlen, rfl, -⟩ := exec_emits h ho
  obtain ⟨-, n, hn, hen, -⟩ := (State.inv_body_iff h2).mp hi
  obtain rfl : e = expectedLen n := Option.some.inj (he.symm.trans hen)
  have hbytes : s.buf.bytes.length = s.len := Memory.bytes_length
  rw [expectedLen_toNat] at hlen
  refine ⟨n, ?_, by rw [List.length_append, List.length_singleton, hbytes, hlen]⟩
  rw [List.getElem?_append_left (by omega), hn]

theorem run_emissions_declareTheirLength (h : run is s = .next (t, os)) :
    ∀ f ∈ emissions os, Codec.DeclaresItsLength f := by
  induction is generalizing s os with
  | nil => cases h; simp
  | cons i is ih =>
    obtain ⟨m, os', hm, hr, rfl⟩ := run_cons_next h
    intro f hf
    rw [emissions_cons, List.mem_append, Option.mem_toList] at hf
    obtain ho | hf' := hf
    · exact exec_out_declaresItsLength hm ho
    · exact ih hr f hf'

/-- A frame that declares its length has 3 to 258 bytes (R6). -/
theorem length_of_declaresItsLength (hf : Codec.DeclaresItsLength f) : 3 ≤ f.length ∧ f.length ≤ 258 := by
  obtain ⟨n, -, hl⟩ := hf
  have hn : n.toNat < 256 := n.isLt
  omega

/-- Settles O37: a step is an event, and what it emits declares its length. -/
theorem emittedFramesAreWellFormed : Obligations.EmittedFramesAreWellFormed := by
  intro s t f _ h ho
  have hf : Codec.DeclaresItsLength f := exec_out_declaresItsLength h ho
  obtain ⟨hmin, hmax⟩ := length_of_declaresItsLength hf
  exact ⟨hmin, hmax, hf⟩

/-- Settles O38: what declares its length is a wire form. -/
theorem emittedFramesDecode : Obligations.EmittedFramesDecode := by
  intro s t f _ h ho
  obtain ⟨q, rfl⟩ := (exec_out_declaresItsLength h ho).eq_wire
  exact ⟨q, Codec.decode_wire q, rfl⟩

/-- The frames a run emits, and its last buffer, bound the bytes they were made of (R6, R64). -/
theorem run_emissions_length_bounds (h : run is s = .next (t, os)) :
    (emissions os).length * 3 ≤ (emissions os).flatten.length ∧
    (emissions os).flatten.length ≤ (emissions os).length * 258 := by
  have hf := run_emissions_declareTheirLength h
  have hmin : ∀ k ∈ (emissions os).map List.length, 3 ≤ k :=
    List.forall_mem_map.mpr fun f hm => (length_of_declaresItsLength (hf f hm)).1
  have hmax : ∀ k ∈ (emissions os).map List.length, k ≤ 258 :=
    List.forall_mem_map.mpr fun f hm => (length_of_declaresItsLength (hf f hm)).2
  rw [List.length_flatten]
  exact ⟨by simpa using List.card_nsmul_le_sum _ 3 hmin, by simpa using List.sum_le_card_nsmul _ 258 hmax⟩

theorem reset_notMem_feeds (bs : List Byte) : .reset ∉ bs.map Instr.feed := by simp

/-- Settles O45: the frames are made of the bytes held and fed, at least 3 for each. -/
theorem chunkCompletesBoundedFrames : Obligations.ChunkCompletesBoundedFrames := by
  intro bs s hi
  obtain ⟨t, os, ht⟩ := run_next_of_inv hi (bs.map .feed)
  refine ⟨t, emissions os, by rw [feedN_eq_run, ht]; rfl, ?_⟩
  have hbytes := congrArg List.length (run_conserves (reset_notMem_feeds bs) ht)
  rw [fedBytes_feeds, List.length_append, List.length_append, Memory.bytes_length, Memory.bytes_length] at hbytes
  obtain ⟨hmin, -⟩ := run_emissions_length_bounds ht
  rw [Nat.le_div_iff_mul_le (by omega), State.len]
  omega

/-! ### Emissions apart -/

/-- An event adds at most one byte. -/
theorem exec_len_le (h : exec i s = .next t) : t.len ≤ s.len + 1 := by
  cases i with
  | feed b =>
    obtain ⟨-, ⟨-, rfl⟩ | ⟨-, rfl⟩ | ⟨_, -, -, -, rfl⟩ | ⟨_, -, -, -, rfl⟩⟩ := exec_feed_cases h
    · exact appended_len.le
    · exact learned_len.le
    · exact appended_len.le
    · exact Nat.zero_le _
  | idle => cases h; exact Nat.le_succ _
  | reset => cases h; exact Nat.zero_le _

/-- An emission needs 2 bytes before it, and every step before it brings at most one. -/
theorem run_emission_after_two_bytes {j : Nat} (h : run is s = .next (t, os)) (hj : os[j]? = some (some f)) :
    2 ≤ s.len + j := by
  induction is generalizing s os j with
  | nil => cases h; cases hj
  | cons i is ih =>
    obtain ⟨m, os', hm, hr, rfl⟩ := run_cons_next h
    cases j with
    | zero =>
      obtain ⟨_, _, -, -, h2, -⟩ := exec_emits hm (Option.some.inj hj)
      exact h2
    | succ j =>
      have hlater : 2 ≤ m.len + j := ih hr hj
      have hone : m.len ≤ s.len + 1 := exec_len_le hm
      omega

/-- Settles O47: the first emission leaves no byte, so 2 steps must bring some before the next. -/
theorem emissionsAreThreeStepsApart : Obligations.EmissionsAreThreeStepsApart := by
  intro s t is os i j f g hi h hij hf hg
  induction is generalizing s os i j with
  | nil => cases h; cases hf
  | cons e is ih =>
    obtain ⟨m, os', hm, hr, rfl⟩ := run_cons_next h
    obtain ⟨j, rfl⟩ : ∃ k, j = k + 1 := ⟨j - 1, by omega⟩
    cases i with
    | zero =>
      obtain ⟨_, _, -, -, -, -, -, -, rfl⟩ := exec_emits hm (Option.some.inj hf)
      have hlater := run_emission_after_two_bytes hr hg
      rw [emitted_len] at hlater
      omega
    | succ i =>
      have hrest : i + 3 ≤ j := ih m os' i j (exec_keeps_inv hi hm) hr (by omega) hf hg
      omega

end Sys2Proof.Machine
end

section
/-! PROOFS. The reachable states (spec 10_state.md R26): the invariants leave three kinds of buffer and expected length,
and a run from reset leads to each. -/

namespace Sys2Proof.Machine

variable {s t : State} {is : List Instr} {os : List (Option Frame)}

theorem Reachable.stepRun {k : Nat} (hs : Reachable s) (h : stepRun k s = .next (t, os)) : Reachable t := by
  induction k generalizing s os with
  | zero => cases h; exact hs
  | succ k ih =>
    obtain ⟨m, hm, h'⟩ := andThen_eq_next h
    obtain ⟨⟨u, os'⟩, hu, h''⟩ := andThen_eq_next h'
    cases h''
    exact ih (hs.step hm) hu

/-- Every run over events is the run of the steps that are presented their canonical words. -/
theorem reachable_of_run (h : run is State.reset = .next (t, os)) : Reachable t := by
  have hdecode : (is.map encode).map decodeEvent = is := by
    simp [Function.comp_def, decodeEvent_encode]
  have hsteps := stepRun_withInput (is.map encode) State.reset
  rw [hdecode] at hsteps
  exact (Reachable.reset _).stepRun (hsteps.trans h)

/-- The pair of `buf` and `exp` is of one of R26's three kinds. -/
def RestingPair (buf : Memory) (exp : Option Len9) : Prop :=
  (buf = [] ∧ exp = none) ∨
  (∃ a : Byte, buf = [(0, a)] ∧ exp = none) ∨
  (∃ (bs : List Byte) (n : Byte), 2 ≤ bs.length ∧ bs[1]? = some n ∧ bs.length < n.toNat + 3 ∧
    buf = Memory.ofBytes bs ∧ exp = some (BitVec.ofNat 9 (n.toNat + 3)))

theorem restingPair_of_inv (hi : s.Inv) : RestingPair s.buf s.exp := by
  have hbuf : s.buf = Memory.ofBytes s.buf.bytes := Memory.eq_ofBytes (State.wf_of_inv hi)
  have hlen : s.buf.bytes.length = s.len := Memory.bytes_length
  obtain h0 | h1 | h2 : s.len = 0 ∨ s.len = 1 ∨ 2 ≤ s.len := by omega
  · exact .inl ⟨List.length_eq_zero_iff.mp h0, State.exp_none_of_inv hi (by omega)⟩
  · obtain ⟨a, ha⟩ := List.length_eq_one_iff.mp (hlen.trans h1)
    rw [ha] at hbuf
    exact .inr (.inl ⟨a, hbuf, State.exp_none_of_inv hi (by omega)⟩)
  · obtain ⟨-, n, hn, he, hlt⟩ := (State.inv_body_iff h2).mp hi
    rw [expectedLen_eq_ofNat] at he
    exact .inr (.inr ⟨s.buf.bytes, n, by omega, hn, by omega, hbuf, he⟩)

/-- Feeding the bytes of the buffer from reset leads there. -/
theorem reachable_of_restingPair {buf : Memory} {exp : Option Len9} (h : RestingPair buf exp) :
    ∃ s, Reachable s ∧ s.buf = buf ∧ s.exp = exp := by
  obtain ⟨rfl, rfl⟩ | ⟨a, rfl, rfl⟩ | ⟨bs, n, -, hn, hlt, rfl, rfl⟩ := h
  · exact ⟨State.reset, reachable_of_run (is := []) rfl, rfl, rfl⟩
  · have hfirst : run [.feed a] State.reset = .next (appended State.reset a, [none]) :=
      run_cons (exec_feed_first (State.inv_of_cleared rfl rfl) rfl)
    exact ⟨_, reachable_of_run hfirst, rfl, rfl⟩
  · obtain ⟨t, ht, hti, htb, hte⟩ := run_partial_frame (s := State.reset) rfl rfl hn hlt
    refine ⟨t, reachable_of_run ht, ?_, hte.trans (congrArg some (expectedLen_eq_ofNat n))⟩
    rw [Memory.eq_ofBytes (State.wf_of_inv hti), htb]

/-- Settles O10: a reachable state satisfies the invariants. -/
theorem reachableStatesExactly : Obligations.ReachableStatesExactly := by
  refine fun buf exp => ⟨?_, reachable_of_restingPair⟩
  rintro ⟨s, hs, rfl, rfl⟩
  exact restingPair_of_inv hs.inv

end Sys2Proof.Machine
end

section
/-! PROOFS. Infinite runs (spec 00_scope.md R11; 60_exceptions.md R103; 70_reset_and_hazards.md R120): their first steps
are finite runs, which give their emission sequence, and an endless stream of bytes emits without end. -/

namespace Sys2Proof.Machine

variable {ws : Nat → EventWord} {s t u : State} {k m : Nat} {f : Frame} {os ps : List (Option Frame)}

/-! ### The first steps -/

theorem run_singleton (i : Instr) (s : State) : run [i] s = andThen (exec i s) fun t => .next (t, [t.out]) := rfl

/-- The first steps are the run over the first events. -/
theorem prefixRun_eq_run (ws : Nat → EventWord) (s : State) (k : Nat) :
    prefixRun ws s k = run (eventsBefore ws k) s := by
  induction k with
  | zero => rfl
  | succ k ih =>
    simp only [prefixRun_succ, eventsBefore_succ, run_append, run_singleton, ih, andThen_assoc, andThen_next]

@[simp] theorem eventsBefore_length : (eventsBefore ws k).length = k := by simp [eventsBefore]

theorem prefixRun_length (h : prefixRun ws s k = .next (t, os)) : os.length = k := by
  rw [prefixRun_eq_run] at h
  rw [run_length h, eventsBefore_length]

theorem prefixRun_next_of_inv (hi : s.Inv) (ws : Nat → EventWord) (k : Nat) :
    ∃ t os, prefixRun ws s k = .next (t, os) ∧ t.Inv := by
  obtain ⟨t, os, h⟩ := run_next_of_inv hi (eventsBefore ws k)
  exact ⟨t, os, (prefixRun_eq_run ws s k).trans h, run_keeps_inv hi h⟩

/-- The output trace of the infinite run has in each step the output of a finite run there. -/
theorem outputAt_of_prefixRun {j : Nat} {o : Option Frame} (h : prefixRun ws s k = .next (t, os))
    (hj : os[j]? = some o) : outputAt ws s j = .next o := by
  induction k generalizing t os with
  | zero => cases h; cases hj
  | succ k ih =>
    obtain ⟨m, os', hm, -, hout, rfl⟩ := prefixRun_succ_next h
    have hlen : os'.length = k := prefixRun_length hm
    obtain hlt | heq | hgt := Nat.lt_trichotomy j k
    · rw [List.getElem?_append_left (by omega)] at hj
      exact ih hm hj
    · subst heq
      rw [List.getElem?_append_right (by omega), hlen, Nat.sub_self] at hj
      cases hj
      exact hout
    · rw [List.getElem?_eq_none (by simp; omega)] at hj
      cases hj

/-- Settles O57: the first steps are a finite run, which from the invariants answers next and keeps them. -/
theorem infiniteRunExtendsItsFiniteRuns : Obligations.InfiniteRunExtendsItsFiniteRuns := by
  refine ⟨prefixRun_eq_run, fun ws s k hi => ?_⟩
  obtain ⟨t, os, h, hti⟩ := prefixRun_next_of_inv hi ws k
  exact ⟨t, os, h, hti, prefixRun_length h, fun _ _ => outputAt_of_prefixRun h⟩

/-! ### The emission sequence -/

/-- More first steps have the outputs of fewer ones first. -/
theorem prefixRun_prefix {d : Nat} (h : prefixRun ws s k = .next (t, os))
    (h' : prefixRun ws s (k + d) = .next (u, ps)) : os <+: ps := by
  induction d generalizing u ps with
  | zero => cases h.symm.trans h'; exact List.prefix_rfl
  | succ d ih =>
    obtain ⟨m, qs, hm, -, -, rfl⟩ := prefixRun_succ_next h'
    exact (ih hm).trans (List.prefix_append _ _)

theorem toList_getElem?_eq_some {o : Option Frame} : o.toList[m]? = some f ↔ m = 0 ∧ o = some f := by
  cases o <;> cases m <;> simp

/-- A frame that the first steps emit is the output of one of them, with as many emissions before that step. -/
theorem isEmission_of_prefixRun (h : prefixRun ws s k = .next (t, os)) (hm : (emissions os)[m]? = some f) :
    IsEmission ws s m f := by
  induction k generalizing t os with
  | zero => cases h; cases hm
  | succ k ih =>
    obtain ⟨v, qs, hv, -, hout, rfl⟩ := prefixRun_succ_next h
    rw [emissions_append, emissions_cons, emissions_nil, List.append_nil] at hm
    obtain hlt | hge := Nat.lt_or_ge m (emissions qs).length
    · rw [List.getElem?_append_left hlt] at hm
      exact ih hv hm
    · rw [List.getElem?_append_right hge, toList_getElem?_eq_some] at hm
      obtain ⟨hlast, ho⟩ := hm
      exact ⟨k, (v, qs), hv, by rw [hout, ho], Nat.le_antisymm hge (Nat.sub_eq_zero_iff_le.mp hlast)⟩

/-- A frame of the emission sequence stands at its number in the emissions of the first steps up to its own. -/
theorem IsEmission.exists_prefixRun (hi : s.Inv) (h : IsEmission ws s m f) :
    ∃ k t os, prefixRun ws s k = .next (t, os) ∧ (emissions os)[m]? = some f := by
  obtain ⟨k, ⟨v, qs⟩, hv, hout, hlen⟩ := h
  obtain ⟨t, os, ht, -⟩ := prefixRun_next_of_inv hi ws (k + 1)
  obtain ⟨v', qs', hv', -, hout', rfl⟩ := prefixRun_succ_next ht
  cases hv.symm.trans hv'
  have ho : t.out = some f := Host.Outcome.next.inj (hout'.symm.trans hout)
  refine ⟨k + 1, t, _, ht, ?_⟩
  rw [ho, emissions_append, List.getElem?_append_right hlen.le, hlen, Nat.sub_self]
  rfl

/-- More first steps have the same frame at that number. -/
theorem emission_of_longer_prefixRun {d : Nat} (h : prefixRun ws s k = .next (t, os))
    (h' : prefixRun ws s (k + d) = .next (u, ps)) (hm : (emissions os)[m]? = some f) :
    (emissions ps)[m]? = some f := by
  obtain ⟨rest, rfl⟩ := prefixRun_prefix h h'
  obtain ⟨hlt, -⟩ := List.getElem?_eq_some_iff.mp hm
  rw [emissions_append, List.getElem?_append_left hlt, hm]

/-- Two frames of one number both stand there in a finite run that is long enough for both. -/
theorem IsEmission.unique {g : Frame} (hi : s.Inv) (hf : IsEmission ws s m f) (hg : IsEmission ws s m g) : f = g := by
  obtain ⟨k, t, os, ht, hft⟩ := hf.exists_prefixRun hi
  obtain ⟨k', u, ps, hu, hgu⟩ := hg.exists_prefixRun hi
  obtain ⟨v, qs, hv, -⟩ := prefixRun_next_of_inv hi ws (k + k')
  have hfv : (emissions qs)[m]? = some f := emission_of_longer_prefixRun ht hv hft
  have hgv : (emissions qs)[m]? = some g := emission_of_longer_prefixRun hu (Nat.add_comm k k' ▸ hv) hgu
  exact Option.some.inj (hfv.symm.trans hgv)

/-- Where a number has a frame, the same finite run has one at every lower number. -/
theorem IsEmission.exists_lower {j : Nat} (hi : s.Inv) (h : IsEmission ws s m f) (hj : j < m) :
    ∃ g, IsEmission ws s j g := by
  obtain ⟨k, t, os, ht, hm⟩ := h.exists_prefixRun hi
  obtain ⟨hlt, -⟩ := List.getElem?_eq_some_iff.mp hm
  exact ⟨_, isEmission_of_prefixRun ht (List.getElem?_eq_getElem (hj.trans hlt))⟩

/-- Settles O58: the emission sequence is read off the finite runs, whose emissions extend one another. -/
theorem infiniteRunEmitsInOrder : Obligations.InfiniteRunEmitsInOrder := by
  refine fun ws s hi => ⟨fun m f => ⟨fun h => h.exists_prefixRun hi, ?_⟩, fun m f g hf hg => hf.unique hi hg,
    fun m j f h hj => h.exists_lower hi hj⟩
  rintro ⟨k, t, os, ht, hm⟩
  exact isEmission_of_prefixRun ht hm

/-! ### An endless stream of bytes -/

/-- If every word is a FEED, the first events are as many FEEDs. -/
theorem eventsBefore_feeds (hw : ∀ k, ∃ b, decodeEvent (ws k) = .feed b) (k : Nat) :
    ∃ bs : List Byte, eventsBefore ws k = bs.map .feed ∧ bs.length = k := by
  choose b hb using hw
  exact ⟨(List.range k).map b, by simp [eventsBefore, hb], by simp⟩

/-- After `k` FEEDs the frames emitted, of at most 258 bytes, and the at most 257 bytes left are at least `k` bytes. -/
theorem feeds_le_emissions (hi : s.Inv) (hw : ∀ k, ∃ b, decodeEvent (ws k) = .feed b)
    (h : prefixRun ws s k = .next (t, os)) : k ≤ (emissions os).length * 258 + 257 := by
  obtain ⟨bs, hbs, rfl⟩ := eventsBefore_feeds hw k
  rw [prefixRun_eq_run, hbs] at h
  have hbytes := congrArg List.length (run_conserves (reset_notMem_feeds bs) h)
  rw [fedBytes_feeds, List.length_append, List.length_append, Memory.bytes_length] at hbytes
  obtain ⟨-, hmax⟩ := run_emissions_length_bounds h
  have hrest : t.buf.len ≤ 257 := State.len_le_of_inv (run_keeps_inv hi h)
  omega

/-- Settles O59: enough steps have more than `m` frames. -/
theorem endlessBytesEmitEndlessFrames : Obligations.EndlessBytesEmitEndlessFrames := by
  intro ws s hi hw m
  obtain ⟨t, os, ht, -⟩ := prefixRun_next_of_inv hi ws (m * 258 + 258)
  have hmany : m * 258 + 258 ≤ (emissions os).length * 258 + 257 := feeds_le_emissions hi hw ht
  have hm : m < (emissions os).length := by omega
  exact ⟨_, isEmission_of_prefixRun ht (List.getElem?_eq_getElem hm)⟩

end Sys2Proof.Machine
end

section
/-! PROOFS. What stands beside the machine (spec 20_memory.md R41; 30_encoding.md R53; 41_codec.md R84): several
instances, the output signals, and the exactness of `decode`. -/

namespace Sys2Proof.Machine

variable {s t : State} {ss : List State} {i : Instr} {k : Nat} {es : List (Nat × Instr)}

/-! ### Instances -/

theorem eventsOf_cons (k : Nat) (e : Nat × Instr) (es : List (Nat × Instr)) :
    eventsOf k (e :: es) = if e.1 = k then e.2 :: eventsOf k es else eventsOf k es := by
  by_cases h : e.1 = k <;> simp [eventsOf, h]

/-- An event presented to a place where there is a state is done there and nowhere else. -/
theorem execAt_of_getElem? (hs : ss[k]? = some s) (h : exec i s = .next t) : execAt k i ss = .next (ss.set k t) := by
  rw [execAt, hs]
  simp only [h, andThen_next]

/-- From the invariants an event presented to one of several states answers next: each does it if it is its own, and else
stays as it was. -/
theorem execAt_next (hi : ∀ s ∈ ss, s.Inv) (k : Nat) (i : Instr) :
    ∃ tt, execAt k i ss = .next tt ∧ tt.length = ss.length ∧ (∀ t ∈ tt, t.Inv) ∧
      ∀ (j : Nat) (s : State), ss[j]? = some s →
        ∃ m, tt[j]? = some m ∧ if k = j then exec i s = .next m else m = s := by
  cases hk : ss[k]? with
  | none =>
    refine ⟨ss, by rw [execAt, hk], rfl, hi, fun j s hs => ⟨s, hs, ?_⟩⟩
    rw [if_neg]
    rintro rfl
    cases hk.symm.trans hs
  | some s =>
    have hsi : s.Inv := hi s (List.mem_of_getElem? hk)
    obtain ⟨t, ht⟩ := exec_next_of_inv hsi i
    refine ⟨ss.set k t, execAt_of_getElem? hk ht, List.length_set, fun m hm => ?_, fun j s' hs' => ?_⟩
    · obtain hm' | rfl := List.mem_or_eq_of_mem_set hm
      · exact hi m hm'
      · exact exec_keeps_inv hsi ht
    · by_cases hkj : k = j
      · subst hkj
        cases hk.symm.trans hs'
        obtain ⟨hlt, -⟩ := List.getElem?_eq_some_iff.mp hk
        exact ⟨t, by rw [List.getElem?_set_self hlt], by rwa [if_pos rfl]⟩
      · exact ⟨s', by rw [List.getElem?_set_ne hkj, hs'], by rw [if_neg hkj]⟩

/-- Settles O48, by induction on the events: the first one is done by one state and leaves the others as they are. -/
theorem instancesShareNothing : Obligations.InstancesShareNothing := by
  intro es
  induction es with
  | nil => exact fun ss _ => ⟨ss, rfl, rfl, fun k s hs => ⟨s, [], rfl, hs⟩⟩
  | cons e es ih =>
    intro ss hi
    obtain ⟨mm, hmm, hlen, hmi, hm⟩ := execAt_next hi e.1 e.2
    obtain ⟨tt, htt, hlen', ht⟩ := ih mm hmi
    refine ⟨tt, by rw [runAt, hmm, andThen_next, htt], hlen'.trans hlen, fun k s hs => ?_⟩
    obtain ⟨m, hkm, hem⟩ := hm k s hs
    obtain ⟨t, os, hrun, hkt⟩ := ht k m hkm
    rw [eventsOf_cons]
    by_cases hek : e.1 = k
    · rw [if_pos hek] at hem ⊢
      exact ⟨t, m.out :: os, by rw [run_cons hem, hrun]; rfl, hkt⟩
    · rw [if_neg hek] at hem ⊢
      exact ⟨t, os, hem ▸ hrun, hkt⟩

/-! ### The output signals -/

variable {u : OutPorts} {f : Frame}

/-- The lane signals carry the bytes of the frame, and from its length on what they would have. -/
theorem drivePorts_lane {i : Nat} (hi : i < 258) :
    (drivePorts u (some f)).outData[i] = f[i]?.getD u.outData[i] := by
  simp [drivePorts]

/-- `out_len` holds every frame the block can emit. -/
theorem drivePorts_outLen (hf : f.length ≤ 258) : (drivePorts u (some f)).outLen.toNat = f.length := by
  rw [drivePorts, BitVec.toNat_ofNat, Nat.mod_eq_of_lt (by omega)]

/-- A consumer that reads `out_len` lanes reads the frame. -/
theorem read_drivePorts_some (hf : f.length ≤ 258) : (drivePorts u (some f)).read = some f := by
  have hread : (drivePorts u (some f)).read =
      some ((drivePorts u (some f)).outData.toList.take f.length) := by
    rw [OutPorts.read, drivePorts_outLen hf]
    rfl
  rw [hread, Option.some_inj]
  apply List.ext_getElem (by simpa using hf)
  intro i hi hi'
  rw [List.getElem_take, Vector.getElem_toList, drivePorts_lane (by omega), List.getElem?_eq_getElem hi',
    Option.getD_some]

/-- Settles O49: without a frame only `out_valid` is driven; with one it has at most 258 bytes. -/
theorem portsCarryTheOutput : Obligations.PortsCarryTheOutput := by
  intro s t u hi h
  cases ho : t.out with
  | none => exact ⟨rfl, by simp [drivePorts], fun _ => ⟨rfl, rfl⟩, nofun⟩
  | some f =>
    have hf : f.length ≤ 258 := (length_of_declaresItsLength (exec_out_declaresItsLength h ho)).2
    refine ⟨read_drivePorts_some hf, by simp [drivePorts], nofun, ?_⟩
    rintro f' ⟨⟩
    refine ⟨drivePorts_outLen hf, fun i hi => ⟨fun hlt => ?_, fun hge => ?_⟩⟩
    · rw [drivePorts_lane hi, List.getElem?_eq_getElem hlt, Option.getD_some]
    · rw [drivePorts_lane hi, List.getElem?_eq_none hge, Option.getD_none]

end Sys2Proof.Machine

namespace Sys2Proof.Codec

/-! ### `decode` -/

/-- Settles O54: what decodes to a frame is its wire form, and the wire form decodes to it. -/
theorem decodeIsExactAndInjective : Obligations.DecodeIsExactAndInjective := by
  refine ⟨fun s q h => ⟨decode_ok h, q.length_eq⟩, fun s s' q h h' => ?_,
    fun code crc p h => decode_wire (ResponseFrame.build code crc p h)⟩
  rw [decode_ok h, decode_ok h']

end Sys2Proof.Codec
end

section
/-! PROOFS. Trace lines (spec 30_encoding.md R54, R55; log 12): a printed line is its tokens with spaces between
them, it holds no `;`, and the tokens are read back as the line. -/

namespace Sys2Proof.Machine

/-! ### Tokens with spaces between them -/

/-- Tokens without spaces are the pieces of the text they make. -/
theorem splitSpaces_intercalate {ts : List (List Char)} (hne : ts ≠ []) (h : ∀ t ∈ ts, ' ' ∉ t) :
    splitSpaces ([' '].intercalate ts) = ts := by
  induction ts with
  | nil => exact absurd rfl hne
  | cons t ts ih =>
    have ht : ' ' ∉ t := h t List.mem_cons_self
    cases ts with
    | nil => simpa using splitSpaces_token ht
    | cons u ts =>
      have hrest := ih (List.cons_ne_nil u ts) fun v hv => h v (List.mem_cons_of_mem t hv)
      rw [List.intercalate_cons_cons, List.append_assoc, List.singleton_append, splitSpaces_token_space ht, hrest]

/-- A space at the end adds an empty piece. -/
theorem splitSpaces_append_space (cs : List Char) : splitSpaces (cs ++ [' ']) = splitSpaces cs ++ [[]] := by
  induction cs with
  | nil => rfl
  | cons c cs ih =>
    obtain ⟨t, ts, hts⟩ := List.exists_cons_of_ne_nil (splitSpaces_ne_nil cs)
    rw [hts] at ih
    simp only [List.cons_append, splitSpaces, ih, hts]
    split <;> rfl

/-- A text of tokens holds no character but theirs and the spaces between them. -/
theorem mem_of_mem_intercalate {ts : List (List Char)} {c : Char} (h : c ∈ [' '].intercalate ts) :
    c = ' ' ∨ ∃ t ∈ ts, c ∈ t := by
  induction ts with
  | nil => simp at h
  | cons t ts ih =>
    cases ts with
    | nil => exact .inr ⟨t, List.mem_cons_self, by simpa using h⟩
    | cons u ts =>
      rw [List.intercalate_cons_cons, List.mem_append, List.mem_append, List.mem_singleton] at h
      obtain (ht | hsp) | hrest := h
      · exact .inr ⟨t, List.mem_cons_self, ht⟩
      · exact .inl hsp
      · exact (ih hrest).imp_right fun ⟨v, hv, hc⟩ => ⟨v, List.mem_cons_of_mem t hv, hc⟩

/-! ### The tokens of a line -/

/-- A token's text: it holds no space and starts no comment. -/
abbrev Plain (t : List Char) : Prop := ' ' ∉ t ∧ ';' ∉ t

theorem plain_printByte (b : Byte) : Plain (printByte b) :=
  ⟨(printByte_reads_back b).1, (printByte_reads_back b).2.1⟩

theorem plain_operand (b : Byte) : Plain (['0', 'x'] ++ printByte b) := by
  simpa [Plain] using plain_printByte b

theorem plain_map_printByte (bs : List Byte) : ∀ t ∈ bs.map printByte, Plain t :=
  List.forall_mem_map.mpr fun b _ => plain_printByte b

theorem plain_outputTokens (out : Option Frame) : ∀ t ∈ outputTokens out, Plain t := by
  cases out with
  | none => exact List.forall_mem_nil _
  | some f =>
    exact List.forall_mem_cons.mpr ⟨by decide, List.forall_mem_cons.mpr ⟨by decide, plain_map_printByte f⟩⟩

theorem TraceLine.plain_tokens (l : TraceLine) : ∀ t ∈ l.tokens, Plain t := by
  cases l with
  | feedN bs => exact List.forall_mem_cons.mpr ⟨by decide, plain_map_printByte bs⟩
  | event i out =>
    cases i with
    | feed b =>
      exact List.forall_mem_cons.mpr
        ⟨by decide, List.forall_mem_cons.mpr ⟨plain_operand b, plain_outputTokens out⟩⟩
    | idle => exact List.forall_mem_cons.mpr ⟨by decide, plain_outputTokens out⟩
    | reset => exact List.forall_mem_cons.mpr ⟨by decide, plain_outputTokens out⟩

theorem TraceLine.tokens_ne_nil (l : TraceLine) : l.tokens ≠ [] := by
  cases l with
  | feedN bs => exact List.cons_ne_nil _ _
  | event i out => cases i <;> exact List.cons_ne_nil _ _

/-! ### Reading a line -/

/-- No byte is printed as an empty token. -/
theorem filter_map_printByte (bs : List Byte) :
    (bs.map printByte).filter (fun t => !t.isEmpty) = bs.map printByte :=
  List.filter_eq_self.mpr (List.forall_mem_map.mpr fun _ _ => rfl)

theorem parseOutput_outputTokens (out : Option Frame) :
    parseOutput ((outputTokens out).filter (fun t => !t.isEmpty)) = some out := by
  cases out with
  | none => rfl
  | some f =>
    have hf : (outputTokens (some f)).filter (fun t => !t.isEmpty) = outputMark :: f.map printByte :=
      congrArg (outputMark :: ·) (filter_map_printByte f)
    rw [hf, parseOutput, if_pos rfl, parseBytes_map_printByte, Option.map_some]

theorem parseOperand_printByte (b : Byte) : parseOperand ('0' :: 'x' :: printByte b) = some b :=
  (printByte_reads_back b).2.2

/-- The tokens of a line that are not empty are read as the line. -/
theorem parseTokens_tokens (l : TraceLine) :
    parseTokens (l.tokens.filter (fun t => !t.isEmpty)) = some l := by
  cases l with
  | feedN bs =>
    simp [TraceLine.tokens, feedNWord, feedWord, idleWord, resetWord, parseTokens, filter_map_printByte,
      parseBytes_map_printByte]
  | event i out =>
    cases i with
    | feed b =>
      simp [TraceLine.tokens, feedWord, parseTokens, parseOutput_outputTokens, parseOperand_printByte]
    | idle => simp [TraceLine.tokens, feedWord, idleWord, parseTokens, parseOutput_outputTokens]
    | reset => simp [TraceLine.tokens, feedWord, idleWord, resetWord, parseTokens, parseOutput_outputTokens]

theorem TraceLine.print_pieces (l : TraceLine) : splitSpaces l.print = l.tokens :=
  splitSpaces_intercalate l.tokens_ne_nil fun t ht => (l.plain_tokens t ht).1

/-- A printed line has no comment. -/
theorem TraceLine.print_no_comment (l : TraceLine) : ∀ c ∈ l.print, (c != ';') = true := by
  intro c hc
  rw [bne_iff_ne]
  rintro rfl
  obtain hsp | ⟨t, ht, hct⟩ := mem_of_mem_intercalate hc
  · exact absurd hsp (by decide)
  · exact (l.plain_tokens t ht).2 hct

/-- Settles O6: the comment is dropped, and the space before it adds an empty token only. -/
theorem traceLinesReadBack : Obligations.TraceLinesReadBack := by
  refine fun l comment => ⟨?_, ?_⟩
  · rw [parseLine, List.takeWhile_eq_self_iff.mpr l.print_no_comment, l.print_pieces, parseTokens_tokens]
  · have htext : (l.print ++ ' ' :: ';' :: comment).takeWhile (fun c => c != ';') = l.print ++ [' '] := by
      rw [List.takeWhile_append_of_pos l.print_no_comment]
      rfl
    rw [parseLine, htext, splitSpaces_append_space, l.print_pieces, List.filter_append]
    exact (congrArg parseTokens (List.append_nil _)).trans (parseTokens_tokens l)

end Sys2Proof.Machine
end
